-- ==== Sys2Proof/Word.lean ====
section
/-! DEFINITION. The words of the CORE: a byte (R15, R16), a 16-bit operand field and the 80-bit command word (R61). -/

namespace Sys2Proof

/-- A byte: 8 bits (R15). -/
abbrev Byte := BitVec 8

/-- A 16-bit unsigned operand field `A`, `B`, `C` or `D` (R61, R64). -/
abbrev Word := BitVec 16

/-- The 80-bit command word `CW[79:0]` (R61). -/
abbrev CommandWord := BitVec 80

end Sys2Proof
end

