-- ==== Sys2Proof/Syntax.lean ====
section
/-! DEFINITION. The twelve commands as syntax, one constructor per row of spec/opcode_table.json (R2, R60). The payload of
COPYIMG and RTEXT (R47) is an operand of its command. -/

namespace Sys2Proof

/-- The two-valued pixel state `{Clear, Set}` (R19, R65). -/
inductive PixelState
  | clear
  | set
  deriving DecidableEq, Repr

/-- A command with its operands (R60, R62). Operands are fields of the command word at face value (R64). -/
inductive Instr
  /-- CLEAR (R82). -/
  | clear
  /-- FILL pattern (R83). -/
  | fill (pattern : Byte)
  /-- SETPIX x, y, state (R85). -/
  | setpix (x y : Word) (state : PixelState)
  /-- GETPIX x, y (R86). -/
  | getpix (x y : Word)
  /-- COPYIMG size with its payload of source image bytes (R88). -/
  | copyimg (size : Word) (src : List Byte)
  /-- RCHAR x, y, state, charCode, scale (R102). -/
  | rchar (x y : Word) (state : PixelState) (charCode scale : Word)
  /-- RTEXT x, y, state, text, scale; `len` is field `C`, `text` the payload (R105). -/
  | rtext (x y : Word) (state : PixelState) (len scale : Word) (text : List Byte)
  /-- FRECT x, y, width, height (R109). -/
  | frect (x y width height : Word)
  /-- DFRAME (R112). -/
  | dframe
  /-- INIT (R126). -/
  | init
  /-- FLUSH (R129). -/
  | flush
  /-- SETINV inverted (R132). -/
  | setinv (inverted : Bool)
  deriving DecidableEq, Repr

end Sys2Proof
end

