-- ==== Sys2Proof/WellFormed.lean ====
section
/-! DEFINITION. Which commands are well formed: the payload holds exactly the bytes the command consumes (R68). -/

namespace Sys2Proof

/-- The payload is exactly what the command consumes (R68): `size - 1` bytes for COPYIMG, none where `size = 0`, and
`len` bytes for RTEXT. Every other command has no payload in its syntax, and every field value is a legal encoding
(R64). -/
def Instr.wellFormed : Instr → Bool
  | .copyimg size src => src.length == size.toNat - 1
  | .rtext _ _ _ len _ text => text.length == len.toNat
  | .clear => true
  | .fill _ => true
  | .setpix _ _ _ => true
  | .getpix _ _ => true
  | .rchar _ _ _ _ _ => true
  | .frect _ _ _ _ => true
  | .dframe => true
  | .init => true
  | .flush => true
  | .setinv _ => true

end Sys2Proof
end

