-- ==== Sys2Proof/Decode.lean ====
section
/-! DEFINITION. Decoding and encoding of commands (30_encoding.md): the opcode map of R63, the fields of R61, the payload
rules of R68, the serial form of R75. Total on every word and every list of bytes; every rejection has a name. -/

namespace Sys2Proof

/-- The rows of the opcode map (R60, R63). -/
inductive Mnemonic
  | clear
  | fill
  | setpix
  | getpix
  | copyimg
  | rchar
  | rtext
  | frect
  | dframe
  | init
  | flush
  | setinv
  deriving DecidableEq, Repr

/-- One row of the opcode map: `CW & mask = pattern` selects it (R63; `pattern` is the spec's `match`). -/
structure OpcodeRow where
  name : Mnemonic
  pattern : CommandWord
  mask : CommandWord
  deriving DecidableEq, Repr

/-- Why a presented command is no command the CORE can run (R67, R68). -/
inductive DecodeError
  /-- The word matches no row of the opcode map (R67). -/
  | illegalWord
  /-- The payload holds fewer bytes than the command consumes (R68). -/
  | shortPayload
  /-- A payload came with a command that takes none (R68). -/
  | strayPayload
  /-- A serial form of fewer than ten bytes (R75). -/
  | truncatedWord
  deriving DecidableEq, Repr

/-- The opcode map, row by row (R63). -/
def opcodeTable : List OpcodeRow := [
  ⟨.clear,   0x00000000000000000001#80, 0xFFFFFFFFFFFFFFFFFFFF#80⟩,
  ⟨.fill,    0x00000000000000000002#80, 0x00FFFFFFFFFFFFFFFFFF#80⟩,
  ⟨.setpix,  0x00000000000000000003#80, 0xFEFFFFFFFF00000000FF#80⟩,
  ⟨.getpix,  0x00000000000000000004#80, 0xFFFFFFFFFF00000000FF#80⟩,
  ⟨.copyimg, 0x00000000000000000005#80, 0xFFFFFF0000FFFFFFFFFF#80⟩,
  ⟨.rchar,   0x00000000000000000010#80, 0xFE0000000000000000FF#80⟩,
  ⟨.rtext,   0x00000000000000000011#80, 0xFE0000000000000000FF#80⟩,
  ⟨.frect,   0x00000000000000000012#80, 0xFF0000000000000000FF#80⟩,
  ⟨.dframe,  0x00000000000000000013#80, 0xFFFFFFFFFFFFFFFFFFFF#80⟩,
  ⟨.init,    0x00000000000000000020#80, 0xFFFFFFFFFFFFFFFFFFFF#80⟩,
  ⟨.flush,   0x00000000000000000021#80, 0xFFFFFFFFFFFFFFFFFFFF#80⟩,
  ⟨.setinv,  0x00000000000000000022#80, 0xFEFFFFFFFFFFFFFFFFFF#80⟩]

/-- The row selects the word (R63). -/
def rowSelects (cw : CommandWord) (r : OpcodeRow) : Bool := cw &&& r.mask == r.pattern

/-- The row a command word selects, if any (R63, R67). -/
def selectRow (cw : CommandWord) : Option Mnemonic := (opcodeTable.find? (rowSelects cw)).map OpcodeRow.name

/-- Field `OP = CW[7:0]` (R61). -/
def fieldOP (cw : CommandWord) : Byte := cw.extractLsb' 0 8

/-- Field `A = CW[23:8]` (R61). -/
def fieldA (cw : CommandWord) : Word := cw.extractLsb' 8 16

/-- Field `B = CW[39:24]` (R61). -/
def fieldB (cw : CommandWord) : Word := cw.extractLsb' 24 16

/-- Field `C = CW[55:40]` (R61). -/
def fieldC (cw : CommandWord) : Word := cw.extractLsb' 40 16

/-- Field `D = CW[71:56]` (R61). -/
def fieldD (cw : CommandWord) : Word := cw.extractLsb' 56 16

/-- Field `E = CW[79:72]` (R61). -/
def fieldE (cw : CommandWord) : Byte := cw.extractLsb' 72 8

/-- The flag `E[0]` (R62, R65). -/
def fieldFlag (cw : CommandWord) : Bool := (fieldE cw).getLsbD 0

/-- `E[0]` as a pixel state: 0 = Clear, 1 = Set (R65). -/
def pixelStateOfFlag (flag : Bool) : PixelState := if flag then .set else .clear

/-- How many payload bytes the command consumes (R68): `C` for RTEXT, `C - 1` saturating at 0 for COPYIMG. -/
def payloadNeed (m : Mnemonic) (cw : CommandWord) : Nat :=
  match m with
  | .copyimg => (fieldC cw).toNat - 1
  | .rtext => (fieldC cw).toNat
  | _ => 0

/-- The commands a payload may accompany (R47). -/
def takesPayload (m : Mnemonic) : Bool :=
  match m with
  | .copyimg => true
  | .rtext => true
  | _ => false

/-- The list holds at least this many bytes. -/
def hasBytes : Nat → List Byte → Bool
  | 0, _ => true
  | _ + 1, [] => false
  | n + 1, _ :: rest => hasBytes n rest

/-- The command of a selected row, its operands taken from the fields its format names (R62). -/
def assemble (m : Mnemonic) (cw : CommandWord) (payload : List Byte) : Instr :=
  match m with
  | .clear => .clear
  | .fill => .fill (fieldE cw)
  | .setpix => .setpix (fieldA cw) (fieldB cw) (pixelStateOfFlag (fieldFlag cw))
  | .getpix => .getpix (fieldA cw) (fieldB cw)
  | .copyimg => .copyimg (fieldC cw) payload
  | .rchar => .rchar (fieldA cw) (fieldB cw) (pixelStateOfFlag (fieldFlag cw)) (fieldC cw) (fieldD cw)
  | .rtext => .rtext (fieldA cw) (fieldB cw) (pixelStateOfFlag (fieldFlag cw)) (fieldC cw) (fieldD cw) payload
  | .frect => .frect (fieldA cw) (fieldB cw) (fieldC cw) (fieldD cw)
  | .dframe => .dframe
  | .init => .init
  | .flush => .flush
  | .setinv => .setinv (fieldFlag cw)

/-- Decode a presented command `(CW, PAYLOAD)` (R71 steps 1 and 2, R63, R67, R68). Payload bytes beyond those the command
consumes are discarded. -/
def decodeCommand (cw : CommandWord) (payload : List Byte) : Except DecodeError Instr :=
  match selectRow cw with
  | none => .error .illegalWord
  | some m =>
    if takesPayload m then
      if hasBytes (payloadNeed m cw) payload then .ok (assemble m cw (payload.take (payloadNeed m cw)))
      else .error .shortPayload
    else
      match payload with
      | [] => .ok (assemble m cw [])
      | _ :: _ => .error .strayPayload

/-- Decode the serial form: ten bytes in ascending bit order, then the payload (R75). -/
def decode (bytes : List Byte) : Except DecodeError Instr :=
  match bytes with
  | b0 :: b1 :: b2 :: b3 :: b4 :: b5 :: b6 :: b7 :: b8 :: b9 :: payload =>
    decodeCommand (b9 ++ b8 ++ b7 ++ b6 ++ b5 ++ b4 ++ b3 ++ b2 ++ b1 ++ b0) payload
  | _ => .error .truncatedWord

/-- The command word with these fields (R61). -/
def packFields (op : Byte) (a b c d : Word) (e : Byte) : CommandWord := e ++ d ++ c ++ b ++ a ++ op

/-- A flag as the byte field `E`: `E[0]` the flag, `E[7:1] = 0` (R62). -/
def flagByte (flag : Bool) : Byte := if flag then 1 else 0

/-- A pixel state as its flag (R65). -/
def flagOfPixelState (p : PixelState) : Bool :=
  match p with
  | .clear => false
  | .set => true

/-- The command word of a command (R61 to R63). -/
def encodeWord (i : Instr) : CommandWord :=
  match i with
  | .clear => packFields 0x01 0 0 0 0 0
  | .fill pattern => packFields 0x02 0 0 0 0 pattern
  | .setpix x y state => packFields 0x03 x y 0 0 (flagByte (flagOfPixelState state))
  | .getpix x y => packFields 0x04 x y 0 0 0
  | .copyimg size _ => packFields 0x05 0 0 size 0 0
  | .rchar x y state charCode scale => packFields 0x10 x y charCode scale (flagByte (flagOfPixelState state))
  | .rtext x y state len scale _ => packFields 0x11 x y len scale (flagByte (flagOfPixelState state))
  | .frect x y width height => packFields 0x12 x y width height 0
  | .dframe => packFields 0x13 0 0 0 0 0
  | .init => packFields 0x20 0 0 0 0 0
  | .flush => packFields 0x21 0 0 0 0 0
  | .setinv inverted => packFields 0x22 0 0 0 0 (flagByte inverted)

/-- The payload of a command: empty for ten of the twelve (R47, R61). -/
def payloadOf (i : Instr) : List Byte :=
  match i with
  | .copyimg _ src => src
  | .rtext _ _ _ _ _ text => text
  | _ => []

/-- The ten bytes of a command word, byte 0 = `OP` first (R75). -/
def wordBytes (cw : CommandWord) : List Byte :=
  [cw.extractLsb' 0 8, cw.extractLsb' 8 8, cw.extractLsb' 16 8, cw.extractLsb' 24 8, cw.extractLsb' 32 8,
    cw.extractLsb' 40 8, cw.extractLsb' 48 8, cw.extractLsb' 56 8, cw.extractLsb' 64 8, cw.extractLsb' 72 8]

/-- The serial form of a command: the ten bytes of its word, then its payload (R75). -/
def encode (i : Instr) : List Byte := wordBytes (encodeWord i) ++ payloadOf i

/-- The payload of zero bytes that a command word asks for: as many as its command consumes (R68). -/
def zeroPayload (cw : CommandWord) : List Byte :=
  match selectRow cw with
  | none => []
  | some m => List.replicate (payloadNeed m cw) 0

/-- The instruction the decoder reads from the opcode-table word `w` of `nbits` bits, laid out in its serial form with a
payload of zeros; `none` where the decoder refuses it. -/
def decodeTableWord (nbits w : Nat) : Option Instr :=
  let cw : CommandWord := BitVec.ofNat 80 (w % 2 ^ nbits)
  match decode (wordBytes cw ++ zeroPayload cw) with
  | .ok i => some i
  | .error _ => none

end Sys2Proof
end

