-- ==== Sys2Proof/Config.lean ====
section
/-! DEFINITION. The configuration record of the CORE (00_scope.md R7 to R15), the free values of its environment
(R120, R157), and the reference configuration (R19), in which every OPEN parameter is an opaque constant. -/

namespace Sys2Proof

/-- One quadruple `(x, y, width, height)` of FRAME_RECTS, each a natural below 65536 (R14). -/
structure Rect where
  x : Word
  y : Word
  width : Word
  height : Word
  deriving DecidableEq, Repr

/-- The configuration a CORE is built with (R7 to R14). The constraints the spec puts on the parameters (R7, R8,
R12) are fields, so that a record that breaks one cannot be written. -/
structure Config where
  /-- Display width in pixels (R7). -/
  W : Nat
  /-- Display height in pixels (R7). -/
  H : Nat
  /-- GLYPH: the row `r` of code `c` stands at `c*7 + r`, 896 rows (R9, R45, R46); rows past the end of a shorter list
  are all zero (log 10). -/
  glyph : List (BitVec 5)
  /-- INIT_SEQ (R10). -/
  initSeq : List Byte
  /-- COLCMD[0] (R11). -/
  colCmd0 : Byte
  /-- COLCMD[1] (R11). -/
  colCmd1 : Byte
  /-- CMD_NORMAL (R12). -/
  cmdNormal : Byte
  /-- CMD_INVERT (R12). -/
  cmdInvert : Byte
  /-- T_ASSERT, in microseconds (R13). -/
  tAssert : Nat
  /-- T_RELEASE, in microseconds (R13). -/
  tRelease : Nat
  /-- FRAME_RECTS (R14). -/
  frameRects : List Rect
  W_pos : 0 < W
  H_pos : 0 < H
  W_mod : W % 8 = 0
  H_mod : H % 8 = 0
  size_le : W * (H / 8) + 1 ≤ 65535
  pages_le : H / 8 ≤ 80
  modes_ne : cmdNormal ≠ cmdInvert
  deriving DecidableEq, Repr

/-- `NP = H / 8`, the number of pages (R7). -/
def Config.NP (c : Config) : Nat := c.H / 8

/-- `L = W * NP`, the framebuffer length in bytes (R7). -/
def Config.L (c : Config) : Nat := c.W * c.NP

/-- What the transport answers to one `Xfer` (R120): it completed, it failed, or no answer ever. -/
inductive Answer
  | ok
  | fail
  | never
  deriving DecidableEq, Repr, Inhabited

/-- What the delay primitive does with one `Delay` (R122, R157). -/
inductive DelayAnswer
  | returns
  | never
  deriving DecidableEq, Repr, Inhabited

/-- FREE VALUE: the transport's answer to the transfer with this number since reset, where the state's own list of
answers has ended (R120: chosen freely by the environment). DESIGN CHOICE, safe: log 4. -/
opaque Config.transferAnswer : Nat → Answer

/-- FREE VALUE: what the delay primitive does with the delay of this number since reset, where the state's own list has
ended (R36 (d), R157). DESIGN CHOICE, safe: log 5. -/
opaque Config.delayAnswer : Nat → DelayAnswer

/-- OPEN (R9): the glyph row at a linear address of the ROM. -/
opaque Config.openGlyphRow : Nat → BitVec 5

/-- OPEN (R10): INIT_SEQ. -/
opaque Config.openInitSeq : List Byte

/-- OPEN (R11): COLCMD[0]. -/
opaque Config.openColCmd0 : Byte

/-- OPEN (R11): COLCMD[1]. -/
opaque Config.openColCmd1 : Byte

/-- OPEN (R12): CMD_NORMAL. -/
opaque Config.openCmdNormal : Byte

/-- OPEN (R12): CMD_INVERT is any byte but CMD_NORMAL; this is their difference, less one. -/
opaque Config.openModeDistance : Fin 255

/-- OPEN (R13): T_ASSERT. -/
opaque Config.openTAssert : Nat

/-- OPEN (R13): T_RELEASE. -/
opaque Config.openTRelease : Nat

/-- OPEN (R14): FRAME_RECTS. -/
opaque Config.openFrameRects : List Rect

theorem Config.mode_bytes_differ (a : Byte) (k : Fin 255) : a ≠ a + BitVec.ofNat 8 (k.val + 1) := by
  intro h
  have hk := k.isLt
  have h2 := congrArg BitVec.toNat h
  simp at h2
  omega

/-- The reference configuration (R19): `W = 128`, `H = 64`, every OPEN parameter still open. DESIGN CHOICE: log 2. -/
def Config.reference : Config where
  W := 128
  H := 64
  glyph := (List.range 896).map Config.openGlyphRow
  initSeq := Config.openInitSeq
  colCmd0 := Config.openColCmd0
  colCmd1 := Config.openColCmd1
  cmdNormal := Config.openCmdNormal
  cmdInvert := Config.openCmdNormal + BitVec.ofNat 8 (Config.openModeDistance.val + 1)
  tAssert := Config.openTAssert
  tRelease := Config.openTRelease
  frameRects := Config.openFrameRects
  W_pos := by decide
  H_pos := by decide
  W_mod := by decide
  H_mod := by decide
  size_le := by decide
  pages_le := by decide
  modes_ne := Config.mode_bytes_differ _ _

end Sys2Proof
end

