-- ==== Sys2Proof/Machine/State.lean ====
section
/-! DEFINITION. The state of the CORE as plain data (10_state.md), the environment's part of it (R36, log 1), the reasons
a step can stop, and the state after reset (R35). -/

namespace Sys2Proof.Machine

/-- The level of an output line, `high = 1`, `low = 0` (R26). -/
inductive Level
  | low
  | high
  deriving DecidableEq, Repr

/-- The three GPIO output lines (R26). -/
inductive Line
  | cs
  | dc
  | rst
  deriving DecidableEq, Repr

/-- An output event (R27). -/
inductive Event
  /-- `Drive(line, level)` (R121). -/
  | drive (line : Line) (level : Level)
  /-- `Delay(n)`, `n` microseconds (R122). -/
  | delay (n : Nat)
  /-- `Xfer(bytes)` (R120). -/
  | xfer (bytes : List Byte)
  deriving DecidableEq, Repr

/-- `CTRL`, the controller protocol state (R22). -/
inductive Ctrl
  | uninitialized
  | resetting
  | configuring
  | ready
  deriving DecidableEq, Repr

/-- `STATUS`, the outcome of the most recent RCHAR (R23, R151). -/
inductive Status
  | ok
  | outOfBounds
  | invalidCharacter
  | invalidScale
  deriving DecidableEq, Repr

/-- A command as the host presents it: the command word and the payload (R61, R71). -/
structure Command where
  word : CommandWord
  payload : List Byte
  deriving DecidableEq, Repr

/-- The framebuffer's bytes (R20, R40): the cells that differ from `unlistedByte`, in rising order of index. -/
abbrev Memory := List Host.Cell

/-- What an unlisted index reads as. The spec leaves FB after reset unspecified (R35). DESIGN CHOICE, unsafe: log 3. -/
def unlistedByte : Byte := 0

/-- The canonical form of a memory: indices strictly rising, no cell equal to what an unlisted index reads as. -/
abbrev Memory.wf (m : Memory) : Prop :=
  m.Pairwise (fun a b => a.1 < b.1) ∧ ∀ c ∈ m, c.2 ≠ unlistedByte

/-- The state of the CORE (10_state.md sections 2 to 6), with the parameters of the step (R36, log 1) and the responses
returned (log 8). -/
structure State where
  /-- The configuration record (R7 to R15, R36); no command changes it. -/
  cfg : Config
  /-- `FB` (R20). -/
  fb : Memory
  /-- `CTRL` (R22). -/
  ctrl : Ctrl
  /-- `STATUS` (R23). -/
  status : Status
  /-- `PIXVAL` (R24). -/
  pixval : Bool
  /-- `XFAIL` (R25). -/
  xfail : Bool
  /-- Line `CS` (R26). -/
  cs : Level
  /-- Line `DC` (R26). -/
  dc : Level
  /-- Line `RST` (R26). -/
  rst : Level
  /-- `TRACE`, oldest event first (R27). -/
  trace : List Event
  /-- The CORE is executing a command that has not completed (R33, R157). -/
  busy : Bool
  /-- The response words returned so far, oldest first (R72; the model's own record, log 8). -/
  responses : List Byte
  /-- The commands the host will present, in order (R36, R184). -/
  pending : List Command
  /-- The transport's answers to the coming transfers, oldest first (R36, R120; log 4). -/
  answers : List Answer
  /-- What the delay primitive does with the coming delays, oldest first (R36, R157; log 5). -/
  delays : List DelayAnswer
  deriving DecidableEq, Repr

/-- The reasons a step stops the machine: none. The CORE has no trap (R150), its failures are next states (R151, R155), and
a wait for ever is no fault (R157, log 6). -/
inductive Fault
  deriving DecidableEq, Repr

/-- The cases the spec gives no meaning (R168). -/
inductive Refusal
  /-- Raised by `exec` for an instruction without a meaning. Safe. -/
  | notModelled (mnemonic : String)
  /-- Raised by every meaning in a state whose CORE is busy: a command presented while a command runs has no meaning
  (R59, U12). Safe. -/
  | commandWhileBusy
  /-- Raised by every meaning but INIT's while `CTRL` is not Ready (R70, U2). Safe. -/
  | notReady
  /-- Raised by `step`: the command word matches no row of the opcode map (R67, U3). Safe. -/
  | illegalWord
  /-- Raised by `step` and by the meanings of COPYIMG and RTEXT: the payload is shorter than the command consumes
  (R68, U14). Safe. -/
  | shortPayload
  /-- Raised by `step`: a payload came with a command that takes none (R68, U14). Safe. -/
  | strayPayload
  /-- Raised by the meaning of COPYIMG: `size > L + 1` (R89, U1). Safe. -/
  | sizeTooLarge
  deriving DecidableEq, Repr

/-- The state after hardware reset of a CORE with this configuration whose RAM powers up with this content
(R35, R170). The environment's lists are empty. -/
def State.powerOn (cfg : Config) (fb : Memory) : State where
  cfg := cfg
  fb := fb
  ctrl := .uninitialized
  status := .ok
  pixval := false
  xfail := false
  cs := .high
  dc := .low
  rst := .high
  trace := []
  busy := false
  responses := []
  pending := []
  answers := []
  delays := []

/-- The state after reset: the reference configuration (log 2), no byte of FB listed (log 3). -/
def State.reset : State := State.powerOn Config.reference []

end Sys2Proof.Machine
end

