-- ==== Sys2Proof/Machine/Operands.lean ====
section
/-! DEFINITION. Operand forms: the coordinate-to-byte mapping with its bounds test (R42, R44, R80), the bit operations on
a framebuffer byte (R17, R80), the glyph ROM (R45, R46), the copy length of COPYIMG (R88). Operands are widened to naturals
and every sum is exact (R64, R100). -/

namespace Sys2Proof.Machine

/-- The pixel is on the display (R80); the comparisons are of the full naturals. -/
abbrev inBounds (c : Config) (x y : Nat) : Prop := x < c.W ∧ y < c.H

/-- `index(x, y) = x + (y div 8) * W` (R42). -/
def pixelIndex (c : Config) (x y : Nat) : Nat := x + y / 8 * c.W

/-- `bit(y) = y mod 8` (R42). -/
def pixelBit (y : Nat) : Nat := y % 8

/-- `v | (1 << b)` for Set, `v & ~(1 << b)` for Clear (R80). -/
def writeBit (v : Byte) (b : Nat) (p : PixelState) : Byte :=
  match p with
  | .set => v ||| ((1 : Byte) <<< b)
  | .clear => v &&& ~~~((1 : Byte) <<< b)

/-- `RomRead(c, r)`: the row at linear address `c*7 + r` (R45, R46). -/
def romRead (c : Config) (code row : Nat) : BitVec 5 := (c.glyph[code * 7 + row]?).getD 0

/-- The glyph pixel `(col, row)` of a character is on (R45): bit `4 - col` of the row. -/
def glyphOn (c : Config) (code col row : Nat) : Bool := (romRead c code row).getLsbD (4 - col)

/-- COPYIMG's copy length: `0` if `size = 0`, else `size - 1` (R88). -/
def copyLength (size : Word) : Nat := size.toNat - 1

/-- Column at which RTEXT draws character `i`: `x + 2 + i*5*scale` (R105). -/
def drawColumn (x i scale : Nat) : Nat := x + 2 + i * 5 * scale

/-- The page-select byte `0xB0 + p` (R127). -/
def pageSelect (p : Nat) : Byte := 0xB0 + BitVec.ofNat 8 p

end Sys2Proof.Machine
end

