-- ==== Sys2Proof/Machine/Flags.lean ====
section
/-! DEFINITION. Flag computations: the validations that decide STATUS (R101, R151, R154), the numeric codes of the
registers (R22, R23) and the response word (R72). -/

namespace Sys2Proof.Machine

/-- The outcome of the glyph function's three validations: bounds first, character second, scale third (R101, R154). -/
def glyphStatus (c : Config) (x y code scale : Nat) : Status :=
  if c.W ≤ x ∨ c.H ≤ y then .outOfBounds
  else if 127 < code then .invalidCharacter
  else if scale < 1 ∨ 3 < scale then .invalidScale
  else .ok

/-- The code of a status (R23, R151). -/
def Status.code (st : Status) : BitVec 2 :=
  match st with
  | .ok => 0
  | .outOfBounds => 1
  | .invalidCharacter => 2
  | .invalidScale => 3

/-- The code of a protocol state (R22). -/
def Ctrl.code (ct : Ctrl) : BitVec 2 :=
  match ct with
  | .uninitialized => 0
  | .resetting => 1
  | .configuring => 2
  | .ready => 3

/-- `RESP = {00, CTRL, XFAIL, PIXVAL, STATUS}` (R72). -/
def responseWord (s : State) : Byte :=
  (0 : BitVec 2) ++ s.ctrl.code ++ BitVec.ofBool s.xfail ++ BitVec.ofBool s.pixval ++ s.status.code

end Sys2Proof.Machine
end

