-- ==== Sys2Proof/Machine/Ops.lean ====
section
/-! DEFINITION. The named operations: the framebuffer's bytes (R40, R41), the pixel accessor (R80, R81), the glyph and
rectangle functions (R101, R105, R108), the output primitives (R120 to R122), the framed writes (R123, R124), the transport
failure (R155), admission and response (R70 to R72). -/

namespace Sys2Proof.Machine

/-! ### The framebuffer space -/

/-- `MemRead(i, 1)` (R40). -/
def memRead : Memory → Nat → Byte
  | [], _ => unlistedByte
  | (b, w) :: m, a => if b < a then memRead m a else if b = a then w else unlistedByte

/-- A cell in front of a memory, left out where it equals what an unlisted index reads as. -/
def memPut (a : Nat) (v : Byte) (m : Memory) : Memory := if v = unlistedByte then m else (a, v) :: m

/-- `MemWrite(i, 1, v)` (R40), in canonical form. -/
def memWrite : Memory → Nat → Byte → Memory
  | [], a, v => memPut a v []
  | (b, w) :: m, a, v =>
    if b < a then (b, w) :: memWrite m a v
    else if b = a then memPut a v m
    else memPut a v ((b, w) :: m)

/-- `MemRead(i, n)`: `n` bytes in ascending index order (R41). -/
def memReadBlock (m : Memory) (i n : Nat) : List Byte := (List.range n).map fun k => memRead m (i + k)

/-- `for i in 0 .. L-1: MemWrite(i, 1, v)` (R82, R83). -/
def fillBytes (c : Config) (m : Memory) (v : Byte) : Memory := (List.range c.L).foldl (fun m i => memWrite m i v) m

/-- `for k in 0 .. n-1: MemWrite(i + k, 1, bytes[k])` over a list of bytes, ascending (R88). -/
def copyBytes : List Byte → Nat → Memory → Memory
  | [], _, m => m
  | v :: rest, i, m => copyBytes rest (i + 1) (memWrite m i v)

/-! ### The pixel accessor -/

/-- `SetPixel(x, y, s)` (R80). -/
def setPixel (c : Config) (m : Memory) (x y : Nat) (p : PixelState) : Memory :=
  if inBounds c x y then
    memWrite m (pixelIndex c x y) (writeBit (memRead m (pixelIndex c x y)) (pixelBit y) p)
  else m

/-- `GetPixel(x, y)` (R81). -/
def getPixel (c : Config) (m : Memory) (x y : Nat) : Bool :=
  if inBounds c x y then (memRead m (pixelIndex c x y)).getLsbD (pixelBit y) else false

/-! ### The rasterizer -/

/-- A `w` by `h` block of pixels with its top-left corner at `(x, y)`: column by column, each from the top. -/
def drawBlock (c : Config) (m : Memory) (x y w h : Nat) (p : PixelState) : Memory :=
  (List.range w).foldl (fun m dx => (List.range h).foldl (fun m dy => setPixel c m (x + dx) (y + dy) p) m) m

/-- The on bits of a glyph, each a `scale` by `scale` block (R101). -/
def drawGlyph (c : Config) (m : Memory) (x y : Nat) (p : PixelState) (code scale : Nat) : Memory :=
  (List.range 5).foldl (fun m col =>
    (List.range 7).foldl (fun m row =>
      if glyphOn c code col row then drawBlock c m (x + col * scale) (y + row * scale) scale scale p else m) m) m

/-- `RenderChar(x, y, s, c, k)` (R101): the status, and the framebuffer, unchanged where a validation fails. -/
def renderChar (c : Config) (m : Memory) (x y : Nat) (p : PixelState) (code scale : Nat) : Status × Memory :=
  let st := glyphStatus c x y code scale
  (st, if st = .ok then drawGlyph c m x y p code scale else m)

/-- RTEXT's loop from character `i` on (R105): a character with `drawX > W` is skipped, every other is drawn and its
status discarded. -/
def drawChars (c : Config) (x y : Nat) (p : PixelState) (scale : Nat) : List Byte → Nat → Memory → Memory
  | [], _, m => m
  | code :: rest, i, m =>
    drawChars c x y p scale rest (i + 1)
      (if c.W < drawColumn x i scale then m else (renderChar c m (drawColumn x i scale) y p code.toNat scale).2)

/-- RTEXT's effect on the framebuffer (R105). -/
def renderText (c : Config) (m : Memory) (x y : Nat) (p : PixelState) (text : List Byte) (scale : Nat) : Memory :=
  if c.W ≤ x + 2 ∨ c.H ≤ y ∨ 3 < scale then m else drawChars c x y p scale text 0 m

/-- `FillRect(x, y, w, h)` (R108): Set pixels from column `x + 2`. The two loops stop at the display's edge, past which
`SetPixel` writes nothing (R110, R111; log 12). -/
def fillRect (c : Config) (m : Memory) (x y w h : Nat) : Memory :=
  drawBlock c m (x + 2) y (min w (c.W - (x + 2))) (min h (c.H - y)) .set

/-- DFRAME's loop over the configured rectangles (R112). -/
def drawRects (c : Config) (m : Memory) (rects : List Rect) : Memory :=
  rects.foldl (fun m r => fillRect c m r.x.toNat r.y.toNat r.width.toNat r.height.toNat) m

/-! ### Output primitives -/

/-- How the run of a command's transfers and delays ended. -/
inductive Progress
  /-- Everything so far was answered. -/
  | going (s : State)
  /-- A transfer was answered fail: the command ends (R155). -/
  | failed (s : State)
  /-- A transfer is never answered or a delay never returns: the command waits for ever (R157). -/
  | hung (s : State)
  deriving DecidableEq, Repr

/-- Continue with the next part of the command, where the part before it is done. -/
def Progress.andThen (r : Progress) (f : State → Progress) : Progress :=
  match r with
  | .going s => f s
  | .failed s => .failed s
  | .hung s => .hung s

/-- Append one event to TRACE (R27). -/
def emit (e : Event) (s : State) : State := { s with trace := s.trace ++ [e] }

/-- The level a line was last driven to (R26). -/
def lineLevel (line : Line) (s : State) : Level :=
  match line with
  | .cs => s.cs
  | .dc => s.dc
  | .rst => s.rst

/-- `Drive(line, level)` (R121): the line's state bit and one event, whether or not the level changes. -/
def drive (line : Line) (level : Level) (s : State) : State :=
  match line with
  | .cs => { emit (.drive .cs level) s with cs := level }
  | .dc => { emit (.drive .dc level) s with dc := level }
  | .rst => { emit (.drive .rst level) s with rst := level }

/-- The event is a transfer. -/
def Event.isXfer (e : Event) : Bool :=
  match e with
  | .xfer _ => true
  | _ => false

/-- The event is a delay. -/
def Event.isDelay (e : Event) : Bool :=
  match e with
  | .delay _ => true
  | _ => false

/-- The answer the environment gives to the `k`-th coming transfer, 0 the next one (R120): the state's list, and after
its end a free value (log 4). -/
def answerAt (s : State) (k : Nat) : Answer :=
  (s.answers[k]?).getD (Config.transferAnswer (s.trace.countP Event.isXfer + k))

/-- What the delay primitive does with the `k`-th coming delay (R157; log 5). -/
def delayAt (s : State) (k : Nat) : DelayAnswer :=
  (s.delays[k]?).getD (Config.delayAnswer (s.trace.countP Event.isDelay + k))

/-- The event of `Xfer(bytes)`, and its answer taken from the environment (R120). -/
def xfer (bytes : List Byte) (s : State) : State := { emit (.xfer bytes) s with answers := s.answers.tail }

/-- The event of `Delay(n)`, and what the primitive does taken from the environment (R122). -/
def delayEvent (n : Nat) (s : State) : State := { emit (.delay n) s with delays := s.delays.tail }

/-- `Delay(n)` (R122): an event; the command goes on when the primitive returns, and waits for ever if it never does
(R157). -/
def delay (n : Nat) (s : State) : Progress :=
  match delayAt s 0 with
  | .returns => .going (delayEvent n s)
  | .never => .hung (delayEvent n s)

/-- `TransportFail` (R155), the one exceptional entry: the bracket of the failed transfer is closed and XFAIL set. The
command then ends with its response (`finish`). -/
def transportFail (s : State) : State := { drive .cs .high s with xfail := true }

/-! ### Framed writes -/

/-- One framed write: the level of DC (low for a command byte, high for a data block) and the bytes (R123, R124). -/
structure FramedWrite where
  level : Level
  bytes : List Byte
  deriving DecidableEq, Repr

/-- `CmdWrite(b)`'s write: exactly one byte, DC low (R123). -/
def cmdWrite (b : Byte) : FramedWrite := ⟨.low, [b]⟩

/-- `DataWrite(bytes)`'s write: the whole block, DC high (R124). -/
def dataWrite (bytes : List Byte) : FramedWrite := ⟨.high, bytes⟩

/-- `Drive(DC, level); Drive(CS, low); Xfer(bytes)`: the opening of a framed write up to its transfer (R123, R124). -/
def openWrite (w : FramedWrite) (s : State) : State := xfer w.bytes (drive .cs .low (drive .dc w.level s))

/-- A framed write (R123, R124): the transfer stands between the assertion and the deassertion of chip-select. On `fail`
the command aborts (R155), without an answer it waits with CS still low (R157). -/
def sendWrite (w : FramedWrite) (s : State) : Progress :=
  match answerAt s 0 with
  | .ok => .going (drive .cs .high (openWrite w s))
  | .fail => .failed (transportFail (openWrite w s))
  | .never => .hung (openWrite w s)

/-- Framed writes in order; the first that fails or is never answered ends it (R155, R157). -/
def sendAll : List FramedWrite → State → Progress
  | [], s => .going s
  | w :: rest, s => (sendWrite w s).andThen (sendAll rest)

/-- The four writes of page `p` (R128): page select, the column address pair, the page's bytes. -/
def pageWrites (c : Config) (m : Memory) (p : Nat) : List FramedWrite :=
  [cmdWrite (pageSelect p), cmdWrite c.colCmd0, cmdWrite c.colCmd1, dataWrite (memReadBlock m (p * c.W) c.W)]

/-- The writes of `FlushBody()`, page by page in ascending order (R128; R41: the bytes are those FB holds when the flush
begins, log 13). -/
def flushWrites (c : Config) (m : Memory) : List FramedWrite := (List.range c.NP).flatMap (pageWrites c m)

/-- `FlushBody()` (R128). -/
def flushBody (s : State) : Progress := sendAll (flushWrites s.cfg s.fb) s

/-! ### Admission and completion -/

/-- Return the response word; the CORE is idle again (R71 step 4, R72). -/
def respond (s : State) : State := { s with responses := s.responses ++ [responseWord s], busy := false }

/-- A command that ran to its end answers with its response (R71). -/
def complete (s : State) : Host.Outcome State Fault Refusal := .next (respond s)

/-- The state in which a command with transfers or delays ends: completed, aborted by a transport failure with its
response (R155), or waiting for ever, busy and without a response (R157). -/
def Progress.finish (r : Progress) : State :=
  match r with
  | .going s => respond s
  | .failed s => respond s
  | .hung s => { s with busy := true }

/-- A command begins only in an idle CORE (R33, R71; U12). -/
def whenIdle (s : State) (k : Host.Outcome State Fault Refusal) : Host.Outcome State Fault Refusal :=
  if s.busy then .refused .commandWhileBusy else k

/-- Every command but INIT is admitted only when `CTRL = Ready` (R70; U2). -/
def whenReady (s : State) (k : Host.Outcome State Fault Refusal) : Host.Outcome State Fault Refusal :=
  whenIdle s (if s.ctrl = .ready then k else .refused .notReady)

end Sys2Proof.Machine
end

