-- ==== Sys2Proof/Machine/Controller.lean ====
section
/-! DEFINITION. The meanings of the controller protocol commands (42_controller.md): INIT, FLUSH, SETINV. -/

namespace Sys2Proof.Machine

/-- INIT's body (R126): reset pulse with its two delays, INIT_SEQ, the internal clear, the internal flush, `Ready`. -/
def initBody (s : State) : Progress :=
  (delay s.cfg.tAssert (drive .rst .low (drive .rst .high { s with ctrl := .resetting }))).andThen fun s =>
  (delay s.cfg.tRelease (drive .rst .high s)).andThen fun s =>
  (sendAll (s.cfg.initSeq.map cmdWrite) { s with ctrl := .configuring }).andThen fun s =>
  (flushBody { s with fb := fillBytes s.cfg s.fb 0 }).andThen fun s =>
  .going { s with ctrl := .ready }

/-- INIT (R126): admitted in every `CTRL` state (R70). -/
def execInit (s : State) : Host.Outcome State Fault Refusal := whenIdle s (.next (initBody s).finish)

/-- FLUSH (R129). -/
def execFlush (s : State) : Host.Outcome State Fault Refusal := whenReady s (.next (flushBody s).finish)

/-- SETINV inverted (R132). -/
def execSetinv (inverted : Bool) (s : State) : Host.Outcome State Fault Refusal :=
  whenReady s
    (.next (sendWrite (cmdWrite (if inverted then s.cfg.cmdInvert else s.cfg.cmdNormal)) s).finish)

end Sys2Proof.Machine
end

