-- ==== Sys2Proof/Machine/Framebuffer.lean ====
section
/-! DEFINITION. The meanings of the framebuffer commands (40_framebuffer.md): CLEAR, FILL, SETPIX, GETPIX, COPYIMG. -/

namespace Sys2Proof.Machine

/-- CLEAR (R82). -/
def execClear (s : State) : Host.Outcome State Fault Refusal :=
  whenReady s (complete { s with fb := fillBytes s.cfg s.fb 0 })

/-- FILL pattern (R83). -/
def execFill (pattern : Byte) (s : State) : Host.Outcome State Fault Refusal :=
  whenReady s (complete { s with fb := fillBytes s.cfg s.fb pattern })

/-- SETPIX x, y, state (R85). -/
def execSetpix (x y : Word) (state : PixelState) (s : State) : Host.Outcome State Fault Refusal :=
  whenReady s (complete { s with fb := setPixel s.cfg s.fb x.toNat y.toNat state })

/-- GETPIX x, y (R86). -/
def execGetpix (x y : Word) (s : State) : Host.Outcome State Fault Refusal :=
  whenReady s (complete { s with pixval := getPixel s.cfg s.fb x.toNat y.toNat })

/-- COPYIMG size, PAYLOAD (R88): clear, then copy `copyLength size` bytes from index 0. The preconditions are R89 and
R68. -/
def execCopyimg (size : Word) (src : List Byte) (s : State) : Host.Outcome State Fault Refusal :=
  whenReady s
    (if s.cfg.L + 1 < size.toNat then .refused .sizeTooLarge
    else if hasBytes (copyLength size) src then
      complete { s with fb := copyBytes (src.take (copyLength size)) 0 (fillBytes s.cfg s.fb 0) }
    else .refused .shortPayload)

end Sys2Proof.Machine
end

