-- ==== Sys2Proof/Machine/Rasterizer.lean ====
section
/-! DEFINITION. The meanings of the rasterizer commands (41_rasterizer.md): RCHAR, RTEXT, FRECT, DFRAME. -/

namespace Sys2Proof.Machine

/-- RCHAR x, y, state, charCode, scale (R102): STATUS is always written. -/
def execRchar (x y : Word) (state : PixelState) (charCode scale : Word) (s : State) :
    Host.Outcome State Fault Refusal :=
  whenReady s
    (let r := renderChar s.cfg s.fb x.toNat y.toNat state charCode.toNat scale.toNat
    complete { s with status := r.1, fb := r.2 })

/-- RTEXT x, y, state, text, scale (R105): `len` bytes of the payload, STATUS not written. A payload shorter than `len`
has no meaning (R68). -/
def execRtext (x y : Word) (state : PixelState) (len scale : Word) (text : List Byte) (s : State) :
    Host.Outcome State Fault Refusal :=
  whenReady s
    (if hasBytes len.toNat text then
      complete { s with fb := renderText s.cfg s.fb x.toNat y.toNat state (text.take len.toNat) scale.toNat }
    else .refused .shortPayload)

/-- FRECT x, y, width, height (R109). -/
def execFrect (x y width height : Word) (s : State) : Host.Outcome State Fault Refusal :=
  whenReady s (complete { s with fb := fillRect s.cfg s.fb x.toNat y.toNat width.toNat height.toNat })

/-- DFRAME (R112). -/
def execDframe (s : State) : Host.Outcome State Fault Refusal :=
  whenReady s (complete { s with fb := drawRects s.cfg s.fb s.cfg.frameRects })

end Sys2Proof.Machine
end

