-- ==== Sys2Proof/Machine/Dispatch.lean ====
section
/-! DEFINITION. One arm per command. -/

namespace Sys2Proof.Machine

def exec (i : Instr) (s : State) : Host.Outcome State Fault Refusal :=
  match i with
  | .clear => Sys2Proof.Machine.execClear s
  | .fill pattern => Sys2Proof.Machine.execFill pattern s
  | .setpix x y state => Sys2Proof.Machine.execSetpix x y state s
  | .getpix x y => Sys2Proof.Machine.execGetpix x y s
  | .copyimg size src => Sys2Proof.Machine.execCopyimg size src s
  | .rchar x y state charCode scale => Sys2Proof.Machine.execRchar x y state charCode scale s
  | .rtext x y state len scale text => Sys2Proof.Machine.execRtext x y state len scale text s
  | .frect x y width height => Sys2Proof.Machine.execFrect x y width height s
  | .dframe => Sys2Proof.Machine.execDframe s
  | .init => Sys2Proof.Machine.execInit s
  | .flush => Sys2Proof.Machine.execFlush s
  | .setinv inverted => Sys2Proof.Machine.execSetinv inverted s

end Sys2Proof.Machine
end

