-- ==== Sys2Proof/Machine/Port.lean ====
section
/-! DEFINITION. The command port as `step` uses it (R71): taking the host's next command, naming a decoder's rejection,
presenting a command word. -/

namespace Sys2Proof.Machine

/-- The refusal of a command the decoder rejects (R67, R68). -/
def refusalOf (e : DecodeError) : Refusal :=
  match e with
  | .illegalWord => .illegalWord
  | .shortPayload => .shortPayload
  | .strayPayload => .strayPayload
  | .truncatedWord => .illegalWord

/-- The state once the host has presented its next command: that command is no longer pending. -/
def takeCommand (s : State) : State := { s with pending := s.pending.tail }

/-- The host presents this command next. -/
def present (c : Command) (s : State) : State := { s with pending := c :: s.pending }

/-- The command whose word is the opcode-table word `w` of `nbits` bits, with a payload of zeros of the length it
consumes (R68). -/
def tableCommand (nbits w : Nat) : Command :=
  let cw : CommandWord := BitVec.ofNat 80 (w % 2 ^ nbits)
  ⟨cw, zeroPayload cw⟩

/-- `CTRL` as the admission of a command needs it (R70): INIT is admitted in every state, every other command in Ready
(log 9). -/
def admittingCtrl (cw : CommandWord) (ct : Ctrl) : Ctrl := if selectRow cw = some .init then ct else .ready

/-- An idle CORE to which the host presents this command next, in a `CTRL` state that admits it (log 9). -/
def presentAdmitted (c : Command) (s : State) : State :=
  present c { s with busy := false, ctrl := admittingCtrl c.word s.ctrl }

end Sys2Proof.Machine
end

