-- ==== Sys2Proof/Machine/Step.lean ====
section
/-! DEFINITION. One step of the CORE: the host's next command is presented, decoded and executed (R71, R184). -/

namespace Sys2Proof.Machine

/-- One step. A CORE that waits for a transfer or a delay for ever goes on waiting: its state stays as it was and it
accepts no command (R157, log 6). An idle CORE to which no command is presented waits (R172, log 7).
Otherwise the next command is taken, decoded, and executed or refused. -/
def step (s : State) : Host.Outcome State Fault Refusal :=
  if s.busy then .next s
  else
    match s.pending with
    | [] => .next s
    | c :: _ =>
      match decodeCommand c.word c.payload with
      | .error e => .refused (refusalOf e)
      | .ok i => exec i (takeCommand s)

/-- `s` with the opcode-table word presented next to an idle CORE that admits it, so that the next step runs it (log 9). -/
def State.withFetchWord (s : State) (nbits w : Nat) : State := presentAdmitted (tableCommand nbits w) s

end Sys2Proof.Machine
end

