-- ==== Sys2Proof/Safety.lean ====
section
/-! DEFINITION. The terms in which claims about the CORE are stated: which states admit a command, the environment's good
behaviour, the pixels a drawing covers (R103, R105, R110), the events a command sends (R123, R124, R130, R134), what TRACE
says of the lines, and the invariants of a state. -/

namespace Sys2Proof.Machine

/-- The CORE is idle and `CTRL = Ready`: every command is admitted (R33, R70). -/
def State.admitsAll (s : State) : Prop := s.busy = false ∧ s.ctrl = .ready

/-- The next `n` transfers are all answered ok (R120). -/
def transfersOk (s : State) (n : Nat) : Prop := ∀ k, k < n → answerAt s k = .ok

/-- Both delays of the next INIT return (R122, R126). -/
def delaysReturn (s : State) : Prop := delayAt s 0 = .returns ∧ delayAt s 1 = .returns

/-! ### Pixels covered by a drawing -/

/-- The pixel `(px, py)` lies on an on bit of the glyph of `code` drawn at `(x, y)` with this scale (R103). Row `r` of code
`c` stands at `c*7 + r` (R46), bit 4 of a row is its leftmost column (R45); rows past the ROM's end are zero (log 10). -/
def glyphCovers (c : Config) (x y code scale px py : Nat) : Prop :=
  x ≤ px ∧ y ≤ py ∧ (px - x) / scale ≤ 4 ∧ (py - y) / scale ≤ 6 ∧
    ((c.glyph[code * 7 + (py - y) / scale]?).getD 0).getLsbD (4 - (px - x) / scale) = true

/-- The pixel lies on a glyph that RTEXT draws for some character of the text (R105): the whole call is no no-op, the
character is not skipped, and its code and the scale are valid. -/
def textCovers (c : Config) (x y scale : Nat) (text : List Byte) (px py : Nat) : Prop :=
  x + 2 < c.W ∧ y < c.H ∧ 1 ≤ scale ∧ scale ≤ 3 ∧
    ∃ i code, text[i]? = some code ∧ code.toNat ≤ 127 ∧ x + 2 + i * 5 * scale < c.W ∧
      glyphCovers c (x + 2 + i * 5 * scale) y code.toNat scale px py

/-- The pixel lies in the rectangle FRECT fills, which starts at column `x + 2` (R110). -/
def rectCovers (x y w h px py : Nat) : Prop := x + 2 ≤ px ∧ px < x + 2 + w ∧ y ≤ py ∧ py < y + h

/-- The pixel lies in one of the configured rectangles (R112). -/
def frameCovers (c : Config) (px py : Nat) : Prop :=
  ∃ r ∈ c.frameRects, rectCovers r.x.toNat r.y.toNat r.width.toNat r.height.toNat px py

/-- What a drawing that writes `p` to the pixels `covers` makes of the framebuffer: the covered pixels of the display
hold `p`, every other pixel keeps its value, and a byte no covered pixel lies in is the byte it was (R80, R103). -/
def Draws (c : Config) (m m' : Memory) (p : PixelState) (covers : Nat → Nat → Prop) : Prop :=
  (∀ px py, inBounds c px py → covers px py → getPixel c m' px py = flagOfPixelState p) ∧
  (∀ px py, inBounds c px py → ¬ covers px py → getPixel c m' px py = getPixel c m px py) ∧
  (∀ a, (∀ px py, inBounds c px py → covers px py → pixelIndex c px py ≠ a) → memRead m' a = memRead m a)

/-! ### The loops of the rectangle function as the spec writes them -/

/-- `FillRect(x, y, w, h)` with both loops run to their ends (R108). -/
def fillRectLoops (c : Config) (m : Memory) (x y w h : Nat) : Memory :=
  (List.range w).foldl (fun m dx => (List.range h).foldl (fun m dy => setPixel c m (x + 2 + dx) (y + dy) .set) m) m

/-! ### Events -/

/-- The four events of `CmdWrite(b)` (R123). -/
def commandEvents (b : Byte) : List Event := [.drive .dc .low, .drive .cs .low, .xfer [b], .drive .cs .high]

/-- The four events of `DataWrite(bytes)` (R124). -/
def dataEvents (bytes : List Byte) : List Event := [.drive .dc .high, .drive .cs .low, .xfer bytes, .drive .cs .high]

/-- The sixteen events of page `p` whose data block is `block` (R130). -/
def pageEvents (c : Config) (p : Nat) (block : List Byte) : List Event :=
  commandEvents (BitVec.ofNat 8 (0xB0 + p)) ++ commandEvents c.colCmd0 ++ commandEvents c.colCmd1 ++ dataEvents block

/-- The events of a whole flush of this framebuffer (R130). -/
def flushEvents (c : Config) (m : Memory) : List Event :=
  (List.range c.NP).flatMap fun p => pageEvents c p ((List.range c.W).map fun k => memRead m (p * c.W + k))

/-- The five events of the reset pulse (R126). -/
def resetPulse (c : Config) : List Event :=
  [.drive .rst .high, .drive .rst .low, .delay c.tAssert, .drive .rst .high, .delay c.tRelease]

/-- The events of a whole INIT (R134): the reset pulse, INIT_SEQ, and a flush whose blocks are `W` zero bytes. -/
def initEvents (c : Config) : List Event :=
  resetPulse c ++ c.initSeq.flatMap commandEvents ++
    (List.range c.NP).flatMap fun p => pageEvents c p (List.replicate c.W 0)

/-- The transfers among these events. -/
def transfersIn (es : List Event) : List (List Byte) :=
  es.filterMap fun e =>
    match e with
    | .xfer bytes => some bytes
    | _ => none

/-! ### What TRACE says -/

/-- The level a line has after these events, where it had `level` before them (R121). -/
def levelAfter (line : Line) (level : Level) (es : List Event) : Level :=
  es.foldl (fun v e =>
    match e with
    | .drive l v' => if l = line then v' else v
    | _ => v) level

/-- Where the transport bus stands: chip-select high; chip-select low and nothing transferred yet; chip-select low and
the bracket's one transfer made. -/
inductive BusPhase
  | released
  | asserted
  | transferred
  deriving DecidableEq, Repr

/-- How many bytes a transfer carries (R123, R124, R130): one while DC is low, a page's `W` while DC is high. -/
def blockLength (W : Nat) (dc : Level) : Nat :=
  match dc with
  | .low => 1
  | .high => W

/-- One event against the framing rules (R123, R124, R130), for a display of `W` columns: DC changes only while
chip-select is high; a bracket holds one transfer, one byte long while DC is low and `W` bytes long while DC is high.
`none` where the event breaks a rule. -/
def busStep (W : Nat) (b : BusPhase × Level) (e : Event) : Option (BusPhase × Level) :=
  match e with
  | .drive .cs .high => some (.released, b.2)
  | .drive .cs .low => if b.1 = .released then some (.asserted, b.2) else none
  | .drive .dc v => if b.1 = .released then some (.released, v) else none
  | .drive .rst _ => some b
  | .delay _ => some b
  | .xfer bytes =>
    if b.1 = .asserted ∧ bytes.length = blockLength W b.2 then some (.transferred, b.2)
    else none

/-- The events in order against the framing rules, from this standing of the bus. -/
def busRun (W : Nat) : List Event → BusPhase × Level → Option (BusPhase × Level)
  | [], b => some b
  | e :: es, b => (busStep W b e).bind (busRun W es)

/-- Every transfer in TRACE is properly framed, and an idle CORE has released the bus (R123, R124). -/
def State.Framed (s : State) : Prop :=
  ∃ b, busRun s.cfg.W s.trace (.released, .low) = some b ∧ b.2 = s.dc ∧ (s.busy = false → b.1 = .released)

/-! ### The invariant -/

/-- The framebuffer is in canonical form and lists no index that does not exist (R40). -/
def State.FbOk (s : State) : Prop := s.fb.wf ∧ ∀ c ∈ s.fb, c.1 < s.cfg.L

/-- Every line holds the level TRACE last drove it to, its reset level where it was never driven (R26, R35, R121). -/
def State.LinesOk (s : State) : Prop :=
  s.cs = levelAfter .cs .high s.trace ∧ s.dc = levelAfter .dc .low s.trace ∧ s.rst = levelAfter .rst .high s.trace

/-- An idle CORE has chip-select and reset high, is not in `Resetting`, and stands in `Configuring` only after a failed
transfer (R125, R126, R155). -/
def State.IdleOk (s : State) : Prop :=
  s.busy = false → s.cs = .high ∧ s.rst = .high ∧ s.ctrl ≠ .resetting ∧ (s.ctrl = .configuring → s.xfail = true)

/-- The invariant of the CORE's state. -/
def State.Inv (s : State) : Prop := s.FbOk ∧ s.LinesOk ∧ s.IdleOk

/-- The command that ended in `t` completed: the CORE is idle and its response, the snapshot of its registers, is the one
returned last (R71, R72). -/
def Responded (s t : State) : Prop := t.busy = false ∧ t.responses = s.responses ++ [responseWord t]

end Sys2Proof.Machine
end

