-- ==== Sys2Proof/Certificates/Slice0/Obligations.lean ====
section
/-! DEFINITION. The statements for the provers, from the numbered rules of spec/. Each docstring names the rule or the
section it formalises. -/

open Sys2Proof Sys2Proof.Machine

/-! ### Encoding -/

/-- Command words written out in 95_test_vectors.md V1 and V2 decode to the commands they stand for (R61 to R63). -/
def Obligations.SpecWordsDecodeToTheirCommands : Prop :=
  decodeCommand 0x00000000000000000001#80 [] = .ok .clear ∧
  decodeCommand 0xA5000000000000000002#80 [] = .ok (.fill 0xA5) ∧
  decodeCommand 0x0100000000000A000503#80 [] = .ok (.setpix 5 10 .set) ∧
  decodeCommand 0x0000000000003F007F04#80 [] = .ok (.getpix 127 63) ∧
  decodeCommand 0x00000000040000000005#80 [0x11, 0x22, 0x33, 0x44] = .ok (.copyimg 4 [0x11, 0x22, 0x33]) ∧
  decodeCommand 0x01000100410005000310#80 [] = .ok (.rchar 3 5 .set 0x41 1) ∧
  decodeCommand 0x01000200020004000411#80 [0x48, 0x49] = .ok (.rtext 4 4 .set 2 2 [0x48, 0x49]) ∧
  decodeCommand 0x00000400020006000A12#80 [] = .ok (.frect 10 6 2 4) ∧
  decodeCommand 0x00000000000000000013#80 [] = .ok .dframe ∧
  decodeCommand 0x00000000000000000020#80 [] = .ok .init ∧
  decodeCommand 0x00000000000000000021#80 [] = .ok .flush ∧
  decodeCommand 0x01000000000000000022#80 [] = .ok (.setinv true) ∧
  decodeCommand 0x00000000000000000000#80 [] = .error .illegalWord ∧
  decodeCommand 0x03000000000000000003#80 [] = .error .illegalWord

/-- The serial form of every well-formed command decodes to that command (R61, R62, R68, R75). -/
def Obligations.DecodeOfEncodeIsTheCommand : Prop :=
  ∀ i : Instr, i.wellFormed = true → decode (encode i) = .ok i

/-- A command word that decodes is the word of the command it decodes to, and the command's payload is the front of the
presented one, as long as the word asks for: one word per command (R63, R68; 92_eei_decisions.md D4). -/
def Obligations.DecodedCommandReencodes : Prop :=
  ∀ (cw : CommandWord) (payload : List Byte) (i : Instr), decodeCommand cw payload = .ok i →
    i.wellFormed = true ∧ encodeWord i = cw ∧ payloadOf i = payload.take (payloadOf i).length

/-- Which words select a row, field by field (R62, R63, R66): the opcode, with every reserved bit zero. -/
def Obligations.RowsAskForZeroReservedBits : Prop :=
  ∀ cw : CommandWord,
    (selectRow cw = some .clear ↔ fieldOP cw = 0x01 ∧ fieldA cw = 0 ∧ fieldB cw = 0 ∧ fieldC cw = 0 ∧ fieldD cw = 0 ∧
      fieldE cw = 0) ∧
    (selectRow cw = some .fill ↔ fieldOP cw = 0x02 ∧ fieldA cw = 0 ∧ fieldB cw = 0 ∧ fieldC cw = 0 ∧ fieldD cw = 0) ∧
    (selectRow cw = some .setpix ↔ fieldOP cw = 0x03 ∧ fieldC cw = 0 ∧ fieldD cw = 0 ∧
      (fieldE cw = 0 ∨ fieldE cw = 1)) ∧
    (selectRow cw = some .getpix ↔ fieldOP cw = 0x04 ∧ fieldC cw = 0 ∧ fieldD cw = 0 ∧ fieldE cw = 0) ∧
    (selectRow cw = some .copyimg ↔ fieldOP cw = 0x05 ∧ fieldA cw = 0 ∧ fieldB cw = 0 ∧ fieldD cw = 0 ∧
      fieldE cw = 0) ∧
    (selectRow cw = some .rchar ↔ fieldOP cw = 0x10 ∧ (fieldE cw = 0 ∨ fieldE cw = 1)) ∧
    (selectRow cw = some .rtext ↔ fieldOP cw = 0x11 ∧ (fieldE cw = 0 ∨ fieldE cw = 1)) ∧
    (selectRow cw = some .frect ↔ fieldOP cw = 0x12 ∧ fieldE cw = 0) ∧
    (selectRow cw = some .dframe ↔ fieldOP cw = 0x13 ∧ fieldA cw = 0 ∧ fieldB cw = 0 ∧ fieldC cw = 0 ∧
      fieldD cw = 0 ∧ fieldE cw = 0) ∧
    (selectRow cw = some .init ↔ fieldOP cw = 0x20 ∧ fieldA cw = 0 ∧ fieldB cw = 0 ∧ fieldC cw = 0 ∧ fieldD cw = 0 ∧
      fieldE cw = 0) ∧
    (selectRow cw = some .flush ↔ fieldOP cw = 0x21 ∧ fieldA cw = 0 ∧ fieldB cw = 0 ∧ fieldC cw = 0 ∧ fieldD cw = 0 ∧
      fieldE cw = 0) ∧
    (selectRow cw = some .setinv ↔ fieldOP cw = 0x22 ∧ fieldA cw = 0 ∧ fieldB cw = 0 ∧ fieldC cw = 0 ∧
      fieldD cw = 0 ∧ (fieldE cw = 0 ∨ fieldE cw = 1))

/-- No word satisfies two rows (R63). -/
def Obligations.NoWordSatisfiesTwoRows : Prop :=
  ∀ (cw : CommandWord) (r r' : OpcodeRow), r ∈ opcodeTable → r' ∈ opcodeTable →
    cw &&& r.mask = r.pattern → cw &&& r'.mask = r'.pattern → r = r'

/-! ### The command port -/

/-- A step of an idle CORE runs the command the presented word and payload decode to, on the state in which that command
is no longer pending (R71). That the host's coming commands are a list in the state is the model's choice (log 1). -/
def Obligations.StepRunsThePresentedCommand : Prop :=
  ∀ (s : State) (c : Command) (rest : List Command) (i : Instr),
    s.busy = false → s.pending = c :: rest → decodeCommand c.word c.payload = .ok i →
    step s = exec i { s with pending := rest }

/-- A word that matches no row is refused; the all-zero word matches none (R67). -/
def Obligations.IllegalWordsAreRefused : Prop :=
  (∀ (s : State) (c : Command) (rest : List Command), s.busy = false → s.pending = c :: rest →
    (∀ r ∈ opcodeTable, c.word &&& r.mask ≠ r.pattern) → step s = .refused .illegalWord) ∧
  (∀ r ∈ opcodeTable, (0 : CommandWord) &&& r.mask ≠ r.pattern)

/-- The payload rules (R68): a payload shorter than RTEXT's or COPYIMG's word asks for is refused, a payload with any of
the other ten commands is refused, and bytes beyond those consumed change nothing. The refusals' names are the model's
(log 11). -/
def Obligations.PayloadLengthRules : Prop :=
  ∀ (s : State) (c : Command) (rest : List Command), s.busy = false → s.pending = c :: rest →
    (selectRow c.word = some .rtext → c.payload.length < (fieldC c.word).toNat → step s = .refused .shortPayload) ∧
    (selectRow c.word = some .copyimg → c.payload.length < (fieldC c.word).toNat - 1 →
      step s = .refused .shortPayload) ∧
    (∀ m, selectRow c.word = some m → m ≠ .rtext → m ≠ .copyimg → c.payload ≠ [] → step s = .refused .strayPayload) ∧
    (∀ extra : List Byte,
      (selectRow c.word = some .rtext → (fieldC c.word).toNat ≤ c.payload.length →
        step { s with pending := ⟨c.word, c.payload ++ extra⟩ :: rest } = step s) ∧
      (selectRow c.word = some .copyimg → (fieldC c.word).toNat - 1 ≤ c.payload.length →
        step { s with pending := ⟨c.word, c.payload ++ extra⟩ :: rest } = step s))

/-- An idle CORE to which nothing is presented waits unchanged (R172). A CORE that waits for a transfer or a delay stays as it
was for ever, whatever the host would present (R157): no number of steps changes it, and none stops. That either wait is
a step is the model's choice (log 6, log 7). -/
def Obligations.IdleCoreWaitsAndHungCoreStaysHung : Prop :=
  (∀ s : State, s.busy = false → s.pending = [] → step s = .next s) ∧
  (∀ (s : State) (n : Nat), s.busy = true → Sys2Proof.core.run n s = .next s)

/-- Admission (R70): INIT runs in every `CTRL` state; any other command is refused unless `CTRL = Ready`, and in `Ready`
is not refused for that reason. That INIT answers a next state also where it waits for ever is the model's choice (log 6);
so are the refusal's name and that it goes before a command's own preconditions (log 11). -/
def Obligations.AdmissionByControllerState : Prop :=
  (∀ s : State, s.busy = false → ∃ t, exec .init s = .next t) ∧
  (∀ (i : Instr) (s : State), i ≠ .init → s.busy = false → s.ctrl ≠ .ready → exec i s = .refused .notReady) ∧
  (∀ (i : Instr) (s : State), s.busy = false → s.ctrl = .ready → exec i s ≠ .refused .notReady)

/-- A command presented to a busy CORE is refused (R33, R59, U12); the refusal's name is the model's (log 11). -/
def Obligations.CommandsWhileBusyAreRefused : Prop :=
  ∀ (i : Instr) (s : State), s.busy = true → exec i s = .refused .commandWhileBusy

/-! ### Reset and invariants -/

/-- The state after reset, for every configuration and every content the RAM powers up with (R35, R170). The content and
the configuration of `State.reset` itself are the model's choice (log 2, log 3). -/
def Obligations.ResetValues : Prop :=
  (∀ (cfg : Config) (fb : Memory),
    (State.powerOn cfg fb).cfg = cfg ∧ (State.powerOn cfg fb).fb = fb ∧
    (State.powerOn cfg fb).ctrl = .uninitialized ∧ (State.powerOn cfg fb).status = .ok ∧
    (State.powerOn cfg fb).pixval = false ∧ (State.powerOn cfg fb).xfail = false ∧
    (State.powerOn cfg fb).cs = .high ∧ (State.powerOn cfg fb).dc = .low ∧ (State.powerOn cfg fb).rst = .high ∧
    (State.powerOn cfg fb).trace = [] ∧ (State.powerOn cfg fb).busy = false ∧
    responseWord (State.powerOn cfg fb) = 0x00) ∧
  State.reset = State.powerOn Config.reference []

/-- The invariant and the framing of TRACE hold after reset, for every configuration and every power-up content
(R35, R170). -/
def Obligations.ResetMeetsTheInvariants : Prop :=
  (∀ (cfg : Config) (fb : Memory), fb.wf → (∀ c ∈ fb, c.1 < cfg.L) →
    (State.powerOn cfg fb).Inv ∧ (State.powerOn cfg fb).Framed) ∧
  State.reset.Inv ∧ State.reset.Framed

/-- Every step keeps the invariant: FB in canonical form with existing indices only (R40, R44), every line at the level
TRACE last drove it to (R121), and an idle CORE with chip-select and reset high, never in `Resetting`, in `Configuring`
only after a failed transfer (R125, R126, R155). -/
def Obligations.EveryStepKeepsTheInvariant : Prop :=
  ∀ s t : State, s.Inv → step s = .next t → t.Inv

/-- Every step keeps TRACE framed: every transfer in it stands in a chip-select bracket of its own, one byte long with DC
low and a page long with DC high, and an idle CORE has released the bus (R123, R124, R130, R155). -/
def Obligations.EveryStepKeepsTransfersFramed : Prop :=
  ∀ s t : State, s.Framed → step s = .next t → t.Framed

/-- No step changes the configuration, takes an event or a response back, clears XFAIL, or returns more than one response
(R25, R27, R36, R71). -/
def Obligations.StepsOnlyAppend : Prop :=
  ∀ s t : State, step s = .next t →
    t.cfg = s.cfg ∧ (∃ es, t.trace = s.trace ++ es) ∧
    (t.responses = s.responses ∨ t.responses = s.responses ++ [responseWord t]) ∧
    (s.xfail = true → t.xfail = true)

/-- Only INIT moves `CTRL` (R22, R125): every other command leaves it as it was, and an INIT ends in `Ready`, in
`Configuring` with XFAIL set, or waiting for ever in `Resetting` or `Configuring`, a next state by the model's choice (log 6). -/
def Obligations.OnlyInitMovesCtrl : Prop :=
  (∀ (i : Instr) (s t : State), i ≠ .init → exec i s = .next t → t.ctrl = s.ctrl) ∧
  (∀ s t : State, exec .init s = .next t →
    (t.busy = false ∧ t.ctrl = .ready) ∨ (t.busy = false ∧ t.ctrl = .configuring ∧ t.xfail = true) ∨
    (t.busy = true ∧ (t.ctrl = .resetting ∨ t.ctrl = .configuring)))

/-- Which commands write which flag (R23, R24, R25, R32): STATUS only RCHAR, PIXVAL only GETPIX, XFAIL only INIT, FLUSH
and SETINV. -/
def Obligations.FlagsHaveOneWriter : Prop :=
  ∀ (i : Instr) (s t : State), exec i s = .next t →
    ((∀ x y p c k, i ≠ .rchar x y p c k) → t.status = s.status) ∧
    ((∀ x y, i ≠ .getpix x y) → t.pixval = s.pixval) ∧
    ((i ≠ .init ∧ i ≠ .flush ∧ ∀ v, i ≠ .setinv v) → t.xfail = s.xfail)

/-- The framebuffer and rasterizer commands produce no event and touch neither `CTRL` nor XFAIL nor a line nor the
environment (40_framebuffer.md, 41_rasterizer.md, introductions; R153, R155). -/
def Obligations.DrawingCommandsAreSilent : Prop :=
  ∀ (i : Instr) (s t : State), i ≠ .init → i ≠ .flush → (∀ v, i ≠ .setinv v) → exec i s = .next t →
    t.trace = s.trace ∧ t.ctrl = s.ctrl ∧ t.xfail = s.xfail ∧ t.cs = s.cs ∧ t.dc = s.dc ∧ t.rst = s.rst ∧
    t.busy = s.busy ∧ t.cfg = s.cfg ∧ t.pending = s.pending ∧ t.answers = s.answers ∧ t.delays = s.delays

/-- No command reads STATUS, PIXVAL or XFAIL (R25, R32): on a state that differs only in them, every command that runs
runs too, leaves the same framebuffer, events, lines, `CTRL` and environment, and gives the same result: RCHAR the same
STATUS, GETPIX the same PIXVAL, and, from the same XFAIL, every command the same XFAIL. -/
def Obligations.NoCommandReadsAFlag : Prop :=
  ∀ (i : Instr) (s t : State) (st : Status) (pv xf : Bool), exec i s = .next t →
    ∃ t', exec i { s with status := st, pixval := pv, xfail := xf } = .next t' ∧
      t'.fb = t.fb ∧ t'.trace = t.trace ∧ t'.ctrl = t.ctrl ∧ t'.cs = t.cs ∧ t'.dc = t.dc ∧ t'.rst = t.rst ∧
      t'.busy = t.busy ∧ t'.answers = t.answers ∧ t'.delays = t.delays ∧ t'.cfg = t.cfg ∧ t'.pending = t.pending ∧
      ((∃ x y p c k, i = .rchar x y p c k) → t'.status = t.status) ∧
      ((∃ x y, i = .getpix x y) → t'.pixval = t.pixval) ∧ (xf = s.xfail → t'.xfail = t.xfail)

/-- The fields of the response word (R72, R22, R23). -/
def Obligations.ResponseWordFields : Prop :=
  ∀ s : State,
    (responseWord s).extractLsb' 0 2 =
      (match s.status with | .ok => 0#2 | .outOfBounds => 1#2 | .invalidCharacter => 2#2 | .invalidScale => 3#2) ∧
    (responseWord s).getLsbD 2 = s.pixval ∧ (responseWord s).getLsbD 3 = s.xfail ∧
    (responseWord s).extractLsb' 4 2 =
      (match s.ctrl with | .uninitialized => 0#2 | .resetting => 1#2 | .configuring => 2#2 | .ready => 3#2) ∧
    (responseWord s).extractLsb' 6 2 = 0#2

/-- Every command that completes returns one response, the snapshot of the registers it left; one that waits for ever
returns none (R71, R72, R157). The list of responses and the state that waits are the model's choice (log 6, log 8). -/
def Obligations.CompletedCommandsRespondOnce : Prop :=
  ∀ (i : Instr) (s t : State), exec i s = .next t →
    (t.busy = false → t.responses = s.responses ++ [responseWord t]) ∧ (t.busy = true → t.responses = s.responses)

/-! ### Framebuffer commands -/

/-- CLEAR completes and zeroes every byte; nothing else changes (R82). -/
def Obligations.ClearZeroesEveryByte : Prop :=
  ∀ s : State, s.admitsAll → s.fb.wf →
    ∃ t, exec .clear s = .next t ∧ (∀ a, memRead t.fb a = if a < s.cfg.L then 0 else memRead s.fb a) ∧
      Responded s t ∧ t = { s with fb := t.fb, responses := t.responses }

/-- FILL completes and sets every byte to the pattern, so that pixel `(x, y)` shows bit `y mod 8` of it; nothing else
changes (R83). -/
def Obligations.FillSetsEveryByte : Prop :=
  ∀ (s : State) (pattern : Byte), s.admitsAll → s.fb.wf →
    ∃ t, exec (.fill pattern) s = .next t ∧
      (∀ a, memRead t.fb a = if a < s.cfg.L then pattern else memRead s.fb a) ∧
      (∀ x y, inBounds s.cfg x y → getPixel s.cfg t.fb x y = pattern.getLsbD (y % 8)) ∧
      Responded s t ∧ t = { s with fb := t.fb, responses := t.responses }

/-- The laws of CLEAR and FILL (R84): CLEAR is FILL 0; each is idempotent; after CLEAR every pixel reads Clear, after
FILL 0xFF every pixel reads Set; and the framebuffer they leave does not depend on the one before. -/
def Obligations.ClearAndFillLaws : Prop :=
  (∀ s : State, exec .clear s = exec (.fill 0) s) ∧
  (∀ (p : Byte) (s t : State), s.fb.wf → exec (.fill p) s = .next t → ∃ u, exec (.fill p) t = .next u ∧ u.fb = t.fb) ∧
  (∀ s t : State, s.fb.wf → exec .clear s = .next t → ∃ u, exec .clear t = .next u ∧ u.fb = t.fb) ∧
  (∀ s t : State, s.fb.wf → exec .clear s = .next t → ∀ x y, inBounds s.cfg x y → getPixel s.cfg t.fb x y = false) ∧
  (∀ s t : State, s.fb.wf → exec (.fill 0xFF) s = .next t →
    ∀ x y, inBounds s.cfg x y → getPixel s.cfg t.fb x y = true) ∧
  (∀ (p : Byte) (s s' t t' : State), s.FbOk → s'.FbOk → s.cfg = s'.cfg → exec (.fill p) s = .next t →
    exec (.fill p) s' = .next t' → t.fb = t'.fb)

/-- SETPIX completes (R80, R85). In bounds, bit `y mod 8` of byte `x + (y div 8)*W` holds the state, its other bits and
every other byte keep their values; out of bounds the framebuffer is unchanged. Nothing else changes. -/
def Obligations.SetpixWritesOneBit : Prop :=
  ∀ (s : State) (x y : Word) (p : PixelState), s.admitsAll → s.fb.wf →
    ∃ t, exec (.setpix x y p) s = .next t ∧
      (inBounds s.cfg x.toNat y.toNat →
        (∀ b, b < 8 → (memRead t.fb (x.toNat + y.toNat / 8 * s.cfg.W)).getLsbD b =
          if b = y.toNat % 8 then flagOfPixelState p
          else (memRead s.fb (x.toNat + y.toNat / 8 * s.cfg.W)).getLsbD b) ∧
        (∀ a, a ≠ x.toNat + y.toNat / 8 * s.cfg.W → memRead t.fb a = memRead s.fb a)) ∧
      (¬ inBounds s.cfg x.toNat y.toNat → t.fb = s.fb) ∧
      Responded s t ∧ t = { s with fb := t.fb, responses := t.responses }

/-- GETPIX completes, with PIXVAL the pixel's bit, 0 out of bounds, and that bit in the response; nothing else changes
(R81, R86). -/
def Obligations.GetpixReadsThePixel : Prop :=
  ∀ (s : State) (x y : Word), s.admitsAll →
    ∃ t, exec (.getpix x y) s = .next t ∧
      t.pixval = (if x.toNat < s.cfg.W ∧ y.toNat < s.cfg.H then
        (memRead s.fb (x.toNat + y.toNat / 8 * s.cfg.W)).getLsbD (y.toNat % 8) else false) ∧
      Responded s t ∧ (responseWord t).getLsbD 2 = t.pixval ∧
      t = { s with pixval := t.pixval, responses := t.responses }

/-- The laws of pixel writes and reads, for coordinates of any size (R87): a read after a write, other pixels untouched,
writes to different pixels and writes of one state commute, the last write to a pixel wins, and what a read returns. -/
def Obligations.PixelAccessorLaws : Prop :=
  ∀ (c : Config) (m : Memory), m.wf →
    (∀ x y p, inBounds c x y → getPixel c (setPixel c m x y p) x y = flagOfPixelState p) ∧
    (∀ x y x' y' p, (x, y) ≠ (x', y') → getPixel c (setPixel c m x y p) x' y' = getPixel c m x' y') ∧
    (∀ x y x' y' p p', (x, y) ≠ (x', y') ∨ p = p' →
      setPixel c (setPixel c m x y p) x' y' p' = setPixel c (setPixel c m x' y' p') x y p) ∧
    (∀ x y p p', setPixel c (setPixel c m x y p) x y p' = setPixel c m x y p') ∧
    (∀ x y, inBounds c x y → getPixel c m x y = (memRead m (x + y / 8 * c.W)).getLsbD (y % 8))

/-- The coordinate map (R42 to R44): an in-bounds pixel has an existing index, every bit of every byte is the pixel its
inverse gives, and distinct pixels never share a bit. -/
def Obligations.CoordinateMapIsABijection : Prop :=
  ∀ c : Config,
    (∀ x y, inBounds c x y → x + y / 8 * c.W < c.L) ∧
    (∀ i b, i < c.L → b < 8 → inBounds c (i % c.W) (i / c.W * 8 + b) ∧
      i % c.W + (i / c.W * 8 + b) / 8 * c.W = i ∧ (i / c.W * 8 + b) % 8 = b) ∧
    (∀ x y x' y', inBounds c x y → inBounds c x' y' → x + y / 8 * c.W = x' + y' / 8 * c.W → y % 8 = y' % 8 →
      x = x' ∧ y = y')

/-- COPYIMG within its preconditions completes: `size - 1` payload bytes (none where `size = 0`) from index 0, every
other byte 0; nothing else changes (R88). -/
def Obligations.CopyimgCopiesSizeLessOne : Prop :=
  ∀ (s : State) (size : Word) (src : List Byte), s.admitsAll → s.fb.wf → size.toNat ≤ s.cfg.L + 1 →
    size.toNat - 1 ≤ src.length →
    ∃ t, exec (.copyimg size src) s = .next t ∧
      (∀ a, a < size.toNat - 1 → src[a]? = some (memRead t.fb a)) ∧
      (∀ a, size.toNat - 1 ≤ a → a < s.cfg.L → memRead t.fb a = 0) ∧
      (∀ a, s.cfg.L ≤ a → memRead t.fb a = memRead s.fb a) ∧
      Responded s t ∧ t = { s with fb := t.fb, responses := t.responses }

/-- Outside their preconditions COPYIMG and RTEXT are refused: `size > L + 1` (R89), a payload shorter than the bytes
consumed (R68). -/
def Obligations.CopyimgAndRtextPreconditions : Prop :=
  ∀ s : State, s.admitsAll →
    (∀ (size : Word) (src : List Byte), s.cfg.L + 1 < size.toNat → exec (.copyimg size src) s = .refused .sizeTooLarge) ∧
    (∀ (size : Word) (src : List Byte), size.toNat ≤ s.cfg.L + 1 → src.length < size.toNat - 1 →
      exec (.copyimg size src) s = .refused .shortPayload) ∧
    (∀ (x y : Word) (p : PixelState) (len k : Word) (text : List Byte), text.length < len.toNat →
      exec (.rtext x y p len k text) s = .refused .shortPayload)

/-! ### Rasterizer commands -/

/-- A valid RCHAR completes with STATUS Ok and draws exactly the on bits of its glyph, clipped to the display; nothing
else changes (R101 to R103). Where the bits stand is R45 and R46; that rows past the ROM's end are zero is log 10. -/
def Obligations.RcharDrawsItsGlyph : Prop :=
  ∀ (s : State) (x y : Word) (p : PixelState) (code k : Word), s.admitsAll → s.fb.wf →
    x.toNat < s.cfg.W → y.toNat < s.cfg.H → code.toNat ≤ 127 → 1 ≤ k.toNat → k.toNat ≤ 3 →
    ∃ t, exec (.rchar x y p code k) s = .next t ∧ t.status = .ok ∧
      Draws s.cfg s.fb t.fb p (glyphCovers s.cfg x.toNat y.toNat code.toNat k.toNat) ∧
      Responded s t ∧ t = { s with fb := t.fb, status := t.status, responses := t.responses }

/-- An invalid RCHAR completes, draws nothing and reports the first failing validation in the order bounds, character,
scale; nothing else changes (R101, R151, R154, R160). -/
def Obligations.RcharReportsTheFirstFailure : Prop :=
  ∀ (s : State) (x y : Word) (p : PixelState) (code k : Word), s.admitsAll →
    (s.cfg.W ≤ x.toNat ∨ s.cfg.H ≤ y.toNat →
      ∃ t, exec (.rchar x y p code k) s = .next t ∧ Responded s t ∧
        t = { s with status := .outOfBounds, responses := t.responses }) ∧
    (x.toNat < s.cfg.W → y.toNat < s.cfg.H → 127 < code.toNat →
      ∃ t, exec (.rchar x y p code k) s = .next t ∧ Responded s t ∧
        t = { s with status := .invalidCharacter, responses := t.responses }) ∧
    (x.toNat < s.cfg.W → y.toNat < s.cfg.H → code.toNat ≤ 127 → k.toNat < 1 ∨ 3 < k.toNat →
      ∃ t, exec (.rchar x y p code k) s = .next t ∧ Responded s t ∧
        t = { s with status := .invalidScale, responses := t.responses })

/-- RTEXT completes and draws exactly the glyphs of the characters it does not skip, each at its own column; STATUS and
everything else keep their values (R105 to R107). -/
def Obligations.RtextDrawsItsCharacters : Prop :=
  ∀ (s : State) (x y : Word) (p : PixelState) (len k : Word) (text : List Byte), s.admitsAll → s.fb.wf →
    len.toNat ≤ text.length →
    ∃ t, exec (.rtext x y p len k text) s = .next t ∧
      Draws s.cfg s.fb t.fb p (textCovers s.cfg x.toNat y.toNat k.toNat (text.take len.toNat)) ∧
      Responded s t ∧ t = { s with fb := t.fb, responses := t.responses }

/-- RTEXT that starts out of bounds, or has a scale of 0 or above 3, or no character, changes nothing (R105, R106). -/
def Obligations.RtextThatDrawsNothing : Prop :=
  ∀ (s : State) (x y : Word) (p : PixelState) (len k : Word) (text : List Byte), s.admitsAll →
    len.toNat ≤ text.length →
    s.cfg.W ≤ x.toNat + 2 ∨ s.cfg.H ≤ y.toNat ∨ 3 < k.toNat ∨ k.toNat = 0 ∨ len.toNat = 0 →
    ∃ t, exec (.rtext x y p len k text) s = .next t ∧ Responded s t ∧ t = { s with responses := t.responses }

/-- FRECT completes and sets exactly the pixels of `[x+2, x+2+width) x [y, y+height)` on the display; nothing else
changes (R109, R110). -/
def Obligations.FrectSetsItsRectangle : Prop :=
  ∀ (s : State) (x y w h : Word), s.admitsAll → s.fb.wf →
    ∃ t, exec (.frect x y w h) s = .next t ∧
      Draws s.cfg s.fb t.fb .set (rectCovers x.toNat y.toNat w.toNat h.toNat) ∧
      Responded s t ∧ t = { s with fb := t.fb, responses := t.responses }

/-- The rectangle function, whose loops stop at the display's edge, gives the framebuffer that the spec's full loops
give, for rectangles of any size (R108, R111). -/
def Obligations.ClippedRectangleEqualsFullLoops : Prop :=
  ∀ (c : Config) (m : Memory) (x y w h : Nat), m.wf → (∀ d ∈ m, d.1 < c.L) →
    fillRect c m x y w h = fillRectLoops c m x y w h

/-- DFRAME completes and sets exactly the pixels of the configured rectangles; nothing else changes (R112). -/
def Obligations.DframeSetsItsRectangles : Prop :=
  ∀ s : State, s.admitsAll → s.fb.wf →
    ∃ t, exec .dframe s = .next t ∧ Draws s.cfg s.fb t.fb .set (frameCovers s.cfg) ∧
      Responded s t ∧ t = { s with fb := t.fb, responses := t.responses }

/-- The two-pixel margin (R181): RTEXT, FRECT and DFRAME leave columns 0 and 1 of every row as they were. -/
def Obligations.MarginColumnsAreLeftAlone : Prop :=
  ∀ (i : Instr) (s t : State), s.fb.wf →
    ((∃ x y p len k text, i = .rtext x y p len k text) ∨ (∃ x y w h, i = .frect x y w h) ∨ i = .dframe) →
    exec i s = .next t → ∀ y, getPixel s.cfg t.fb 0 y = getPixel s.cfg s.fb 0 y ∧
      getPixel s.cfg t.fb 1 y = getPixel s.cfg s.fb 1 y

/-! ### Controller protocol -/

/-- The output primitive `Drive` sets its own line and appends exactly one event, whether or not the level changes
(R26, R121). -/
def Obligations.DriveSetsItsLine : Prop :=
  ∀ (l : Line) (v : Level) (s : State), lineLevel l (drive l v s) = v ∧
    (drive l v s).trace = s.trace ++ [.drive l v] ∧ (∀ l', l' ≠ l → lineLevel l' (drive l v s) = lineLevel l' s)

/-- The page-select byte of every page is `0xB0 + p` without overflow (R127): the machine's byte is that number, the
machine's first write of the page sends it as a command byte, and it is the page's first transfer in a flush; the
reference configuration has eight pages. -/
def Obligations.PageSelectBytes : Prop :=
  (∀ (c : Config) (m : Memory) (p : Nat), p < c.NP →
    (pageSelect p).toNat = 0xB0 + p ∧
    (flushWrites c m)[4 * p]? = some ⟨.low, [BitVec.ofNat 8 (0xB0 + p)]⟩ ∧
    (transfersIn (flushEvents c m))[4 * p]? = some [BitVec.ofNat 8 (0xB0 + p)] ∧
    (BitVec.ofNat 8 (0xB0 + p)).toNat = 0xB0 + p) ∧
  Config.reference.NP = 8

/-- FLUSH with every transfer answered ok completes: the events of a whole flush are appended and DC ends high; the
framebuffer and the registers are unchanged (R128 to R130). -/
def Obligations.FlushSendsTheWholeFrame : Prop :=
  ∀ s : State, s.admitsAll → transfersOk s (4 * s.cfg.NP) →
    exec .flush s = .next { s with
      trace := s.trace ++ flushEvents s.cfg s.fb
      cs := .high
      dc := .high
      answers := s.answers.drop (4 * s.cfg.NP)
      responses := s.responses ++ [responseWord s] }

/-- The shape of a flush's events (R130): sixteen a page, four transfers a page, and the data blocks, one a page and each
`W` bytes long, are together `FB[0 .. L-1]`. -/
def Obligations.FlushTraceShape : Prop :=
  ∀ (c : Config) (m : Memory),
    (flushEvents c m).length = 16 * c.NP ∧ (transfersIn (flushEvents c m)).length = 4 * c.NP ∧
    (∀ p, p < c.NP → ((transfersIn (flushEvents c m))[4 * p + 3]?).map List.length = some c.W ∧
      (transfersIn (flushEvents c m))[4 * p + 1]? = some [c.colCmd0] ∧
      (transfersIn (flushEvents c m))[4 * p + 2]? = some [c.colCmd1]) ∧
    ((List.range c.NP).flatMap fun p => ((transfersIn (flushEvents c m))[4 * p + 3]?).getD []) =
      (List.range c.L).map (memRead m)

/-- FLUSH whose transfer number `k` is the first not answered ok, and is answered fail (R155, R129): the events up to it
and the closing of its bracket are in TRACE, XFAIL is set, the response is returned, everything else is unchanged. -/
def Obligations.FlushAbortsAtAFailedTransfer : Prop :=
  ∀ (s : State) (k : Nat), s.admitsAll → k < 4 * s.cfg.NP → transfersOk s k → answerAt s k = .fail →
    ∃ t, exec .flush s = .next t ∧ Responded s t ∧
      t = { s with
        trace := s.trace ++ (flushEvents s.cfg s.fb).take (4 * k + 4)
        xfail := true
        cs := .high
        dc := if k % 4 = 3 then .high else .low
        answers := s.answers.drop (k + 1)
        responses := t.responses }

/-- FLUSH whose transfer number `k` is the first not answered ok, and is never answered (R157): the CORE stays busy with
chip-select low, the events up to that transfer in TRACE, and no response. That this is a next state is the model's choice
(log 6). -/
def Obligations.FlushHangsAtAnUnansweredTransfer : Prop :=
  ∀ (s : State) (k : Nat), s.admitsAll → k < 4 * s.cfg.NP → transfersOk s k → answerAt s k = .never →
    exec .flush s = .next { s with
      trace := s.trace ++ (flushEvents s.cfg s.fb).take (4 * k + 3)
      cs := .low
      dc := if k % 4 = 3 then .high else .low
      busy := true
      answers := s.answers.drop (k + 1) }

/-- INIT with both delays returning and every transfer answered ok completes from any `CTRL` state (R126, R134, R174):
`Ready`, FB all zero, the events of a whole INIT appended, the three lines high; STATUS, PIXVAL and XFAIL as before. -/
def Obligations.InitMakesTheCoreReady : Prop :=
  ∀ s : State, s.busy = false → s.fb.wf → delaysReturn s → transfersOk s (s.cfg.initSeq.length + 4 * s.cfg.NP) →
    ∃ t, exec .init s = .next t ∧ (∀ a, memRead t.fb a = if a < s.cfg.L then 0 else memRead s.fb a) ∧
      Responded s t ∧
      t = { s with
        fb := t.fb
        ctrl := .ready
        trace := s.trace ++ initEvents s.cfg
        cs := .high
        dc := .high
        rst := .high
        answers := s.answers.drop (s.cfg.initSeq.length + 4 * s.cfg.NP)
        delays := s.delays.drop 2
        responses := t.responses }

/-- The shape of an INIT's events (R134). -/
def Obligations.InitTraceShape : Prop :=
  ∀ c : Config, (initEvents c).length = 5 + 4 * c.initSeq.length + 16 * c.NP ∧
    (initEvents c).take 5 = [.drive .rst .high, .drive .rst .low, .delay c.tAssert, .drive .rst .high,
      .delay c.tRelease] ∧
    transfersIn (initEvents c) = c.initSeq.map (fun b => [b]) ++
      (List.range c.NP).flatMap fun p =>
        [[BitVec.ofNat 8 (0xB0 + p)], [c.colCmd0], [c.colCmd1], List.replicate c.W 0]

/-- INIT whose transfer number `k` is the first not answered ok, and is answered fail (R126, R155): it stops there, in
`Configuring`, with XFAIL set and a response; FB is unchanged if the failure came in INIT_SEQ and all zero if it came in
the flush. -/
def Obligations.InitAbortsAtAFailedTransfer : Prop :=
  ∀ (s : State) (k : Nat), s.busy = false → s.fb.wf → delaysReturn s → k < s.cfg.initSeq.length + 4 * s.cfg.NP →
    transfersOk s k → answerAt s k = .fail →
    ∃ t, exec .init s = .next t ∧
      (k < s.cfg.initSeq.length → t.fb = s.fb) ∧
      (s.cfg.initSeq.length ≤ k → ∀ a, memRead t.fb a = if a < s.cfg.L then 0 else memRead s.fb a) ∧
      Responded s t ∧
      t = { s with
        fb := t.fb
        ctrl := .configuring
        trace := s.trace ++ (initEvents s.cfg).take (5 + 4 * k + 4)
        xfail := true
        cs := .high
        dc := if s.cfg.initSeq.length ≤ k ∧ (k - s.cfg.initSeq.length) % 4 = 3 then .high else .low
        rst := .high
        answers := s.answers.drop (k + 1)
        delays := s.delays.drop 2
        responses := t.responses }

/-- INIT that waits for ever (R157): in its first delay (`RST` low, `Resetting`), in its second (`RST` high, `Resetting`),
or at a transfer never answered (`CS` low, `Configuring`; FB as it was in INIT_SEQ, all zero in the flush); busy, the events
so far in TRACE, no response, everything else as it was. That this is a next state is the model's choice (log 6). -/
def Obligations.InitHangs : Prop :=
  ∀ s : State, s.busy = false →
    (delayAt s 0 = .never →
      exec .init s = .next { s with
        ctrl := .resetting
        trace := s.trace ++ (initEvents s.cfg).take 3
        rst := .low
        busy := true
        delays := s.delays.drop 1 }) ∧
    (delayAt s 0 = .returns → delayAt s 1 = .never →
      exec .init s = .next { s with
        ctrl := .resetting
        trace := s.trace ++ (initEvents s.cfg).take 5
        rst := .high
        busy := true
        delays := s.delays.drop 2 }) ∧
    (∀ k, s.fb.wf → delaysReturn s → k < s.cfg.initSeq.length + 4 * s.cfg.NP → transfersOk s k →
      answerAt s k = .never →
      ∃ t, exec .init s = .next t ∧
        (k < s.cfg.initSeq.length → t.fb = s.fb) ∧
        (s.cfg.initSeq.length ≤ k → ∀ a, memRead t.fb a = if a < s.cfg.L then 0 else memRead s.fb a) ∧
        t = { s with
          fb := t.fb
          ctrl := .configuring
          trace := s.trace ++ (initEvents s.cfg).take (5 + 4 * k + 3)
          cs := .low
          dc := if s.cfg.initSeq.length ≤ k ∧ (k - s.cfg.initSeq.length) % 4 = 3 then .high else .low
          rst := .high
          busy := true
          answers := s.answers.drop (k + 1)
          delays := s.delays.drop 2 })

/-- SETINV (R132, R155, R157): answered ok it appends the four events of its mode byte; answered fail it appends the same
four and sets XFAIL; never answered it stays busy with chip-select low, a next state by the model's choice (log 6).
Nothing else changes. -/
def Obligations.SetinvSendsItsModeByte : Prop :=
  ∀ (s : State) (inverted : Bool) (b : Byte), s.admitsAll → b = (if inverted then s.cfg.cmdInvert else s.cfg.cmdNormal) →
    (answerAt s 0 = .ok →
      exec (.setinv inverted) s = .next { s with
        trace := s.trace ++ [.drive .dc .low, .drive .cs .low, .xfer [b], .drive .cs .high]
        cs := .high
        dc := .low
        answers := s.answers.drop 1
        responses := s.responses ++ [responseWord s] }) ∧
    (answerAt s 0 = .fail →
      ∃ t, exec (.setinv inverted) s = .next t ∧ Responded s t ∧
        t = { s with
          trace := s.trace ++ [.drive .dc .low, .drive .cs .low, .xfer [b], .drive .cs .high]
          xfail := true
          cs := .high
          dc := .low
          answers := s.answers.drop 1
          responses := t.responses }) ∧
    (answerAt s 0 = .never →
      exec (.setinv inverted) s = .next { s with
        trace := s.trace ++ [.drive .dc .low, .drive .cs .low, .xfer [b]]
        cs := .low
        dc := .low
        busy := true
        answers := s.answers.drop 1 })
end

