-- ==== Sys2Proof/Laws/Decode.lean ====
section
/-! SUPPORT. The laws of the command word (R61, R63): its fields determine it, the fields of a packed word are the packed
ones, and a row of the opcode map selects a word field by field. -/

namespace Sys2Proof

theorem append_toNat_eq {m n : Nat} (x : BitVec m) (y : BitVec n) : (x ++ y).toNat = x.toNat * 2 ^ n + y.toNat := by
  rw [BitVec.toNat_append, ← Nat.shiftLeft_add_eq_or_of_lt y.isLt, Nat.shiftLeft_eq]

/-- The word as a number (R61). -/
theorem packFields_toNat (op : Byte) (a b c d : Word) (e : Byte) :
    (packFields op a b c d e).toNat =
      op.toNat + a.toNat * 2 ^ 8 + b.toNat * 2 ^ 24 + c.toNat * 2 ^ 40 + d.toNat * 2 ^ 56 + e.toNat * 2 ^ 72 := by
  simp only [packFields, append_toNat_eq]
  omega

theorem fieldOP_toNat (cw : CommandWord) : (fieldOP cw).toNat = cw.toNat % 2 ^ 8 := by
  simp [fieldOP, BitVec.extractLsb'_toNat]

theorem fieldA_toNat (cw : CommandWord) : (fieldA cw).toNat = cw.toNat / 2 ^ 8 % 2 ^ 16 := by
  simp [fieldA, BitVec.extractLsb'_toNat, Nat.shiftRight_eq_div_pow]

theorem fieldB_toNat (cw : CommandWord) : (fieldB cw).toNat = cw.toNat / 2 ^ 24 % 2 ^ 16 := by
  simp [fieldB, BitVec.extractLsb'_toNat, Nat.shiftRight_eq_div_pow]

theorem fieldC_toNat (cw : CommandWord) : (fieldC cw).toNat = cw.toNat / 2 ^ 40 % 2 ^ 16 := by
  simp [fieldC, BitVec.extractLsb'_toNat, Nat.shiftRight_eq_div_pow]

theorem fieldD_toNat (cw : CommandWord) : (fieldD cw).toNat = cw.toNat / 2 ^ 56 % 2 ^ 16 := by
  simp [fieldD, BitVec.extractLsb'_toNat, Nat.shiftRight_eq_div_pow]

theorem fieldE_toNat (cw : CommandWord) : (fieldE cw).toNat = cw.toNat / 2 ^ 72 % 2 ^ 8 := by
  simp [fieldE, BitVec.extractLsb'_toNat, Nat.shiftRight_eq_div_pow]

section
variable (op : Byte) (a b c d : Word) (e : Byte)

@[simp] theorem fieldOP_packFields : fieldOP (packFields op a b c d e) = op := by
  apply BitVec.eq_of_toNat_eq
  rw [fieldOP_toNat, packFields_toNat]
  have := op.isLt
  omega

@[simp] theorem fieldA_packFields : fieldA (packFields op a b c d e) = a := by
  apply BitVec.eq_of_toNat_eq
  rw [fieldA_toNat, packFields_toNat]
  have := op.isLt
  have := a.isLt
  omega

@[simp] theorem fieldB_packFields : fieldB (packFields op a b c d e) = b := by
  apply BitVec.eq_of_toNat_eq
  rw [fieldB_toNat, packFields_toNat]
  have := op.isLt
  have := a.isLt
  have := b.isLt
  omega

@[simp] theorem fieldC_packFields : fieldC (packFields op a b c d e) = c := by
  apply BitVec.eq_of_toNat_eq
  rw [fieldC_toNat, packFields_toNat]
  have := op.isLt
  have := a.isLt
  have := b.isLt
  have := c.isLt
  omega

@[simp] theorem fieldD_packFields : fieldD (packFields op a b c d e) = d := by
  apply BitVec.eq_of_toNat_eq
  rw [fieldD_toNat, packFields_toNat]
  have := op.isLt
  have := a.isLt
  have := b.isLt
  have := c.isLt
  have := d.isLt
  omega

@[simp] theorem fieldE_packFields : fieldE (packFields op a b c d e) = e := by
  apply BitVec.eq_of_toNat_eq
  rw [fieldE_toNat, packFields_toNat]
  have := op.isLt
  have := a.isLt
  have := b.isLt
  have := c.isLt
  have := d.isLt
  have := e.isLt
  omega

end

/-- A command word is the packing of its six fields (R61). -/
theorem packFields_fields (cw : CommandWord) :
    packFields (fieldOP cw) (fieldA cw) (fieldB cw) (fieldC cw) (fieldD cw) (fieldE cw) = cw := by
  apply BitVec.eq_of_toNat_eq
  rw [packFields_toNat, fieldOP_toNat, fieldA_toNat, fieldB_toNat, fieldC_toNat, fieldD_toNat, fieldE_toNat]
  have := cw.isLt
  omega

theorem packFields_and (op op' : Byte) (a a' b b' c c' d d' : Word) (e e' : Byte) :
    packFields op a b c d e &&& packFields op' a' b' c' d' e' =
      packFields (op &&& op') (a &&& a') (b &&& b') (c &&& c') (d &&& d') (e &&& e') := by
  show ((e ++ d ++ c ++ b ++ a ++ op) &&& (e' ++ d' ++ c' ++ b' ++ a' ++ op') : BitVec (8 + 16 + 16 + 16 + 16 + 8)) = _
  simp only [BitVec.and_append]
  rfl

theorem packFields_inj {op op' : Byte} {a a' b b' c c' d d' : Word} {e e' : Byte} :
    packFields op a b c d e = packFields op' a' b' c' d' e' ↔
      op = op' ∧ a = a' ∧ b = b' ∧ c = c' ∧ d = d' ∧ e = e' := by
  constructor
  · intro h
    exact ⟨by simpa using congrArg fieldOP h, by simpa using congrArg fieldA h, by simpa using congrArg fieldB h,
      by simpa using congrArg fieldC h, by simpa using congrArg fieldD h, by simpa using congrArg fieldE h⟩
  · rintro ⟨rfl, rfl, rfl, rfl, rfl, rfl⟩
    rfl

/-- A row selects a word exactly where it agrees with it field by field (R63). -/
theorem rowSelects_iff (cw : CommandWord) (r : OpcodeRow) :
    rowSelects cw r = true ↔
      fieldOP cw &&& fieldOP r.mask = fieldOP r.pattern ∧ fieldA cw &&& fieldA r.mask = fieldA r.pattern ∧
      fieldB cw &&& fieldB r.mask = fieldB r.pattern ∧ fieldC cw &&& fieldC r.mask = fieldC r.pattern ∧
      fieldD cw &&& fieldD r.mask = fieldD r.pattern ∧ fieldE cw &&& fieldE r.mask = fieldE r.pattern := by
  rw [rowSelects, beq_iff_eq]
  conv_lhs => rw [← packFields_fields cw, ← packFields_fields r.mask, ← packFields_fields r.pattern]
  rw [packFields_and, packFields_inj]

theorem hasBytes_iff : ∀ (n : Nat) (l : List Byte), hasBytes n l = true ↔ n ≤ l.length
  | 0, _ => by simp [hasBytes]
  | n + 1, [] => by simp [hasBytes]
  | n + 1, _ :: l => by simp [hasBytes, hasBytes_iff n l]

theorem append_extracts (n m b a : Nat) (cw : CommandWord) (h : b = a + m) :
    cw.extractLsb' b n ++ cw.extractLsb' a m = cw.extractLsb' a (n + m) := by
  rw [BitVec.extractLsb'_append_extractLsb'_eq_extractLsb' h]

/-- The ten bytes of a word make the word (R75). -/
theorem join_bytes (cw : CommandWord) :
    (cw.extractLsb' 72 8 ++ cw.extractLsb' 64 8 ++ cw.extractLsb' 56 8 ++ cw.extractLsb' 48 8 ++ cw.extractLsb' 40 8 ++
      cw.extractLsb' 32 8 ++ cw.extractLsb' 24 8 ++ cw.extractLsb' 16 8 ++ cw.extractLsb' 8 8 ++ cw.extractLsb' 0 8 :
      BitVec 80) = cw := by
  rw [append_extracts 8 8 72 64 cw rfl, append_extracts 16 8 64 56 cw rfl, append_extracts 24 8 56 48 cw rfl,
    append_extracts 32 8 48 40 cw rfl, append_extracts 40 8 40 32 cw rfl, append_extracts 48 8 32 24 cw rfl,
    append_extracts 56 8 24 16 cw rfl, append_extracts 64 8 16 8 cw rfl, append_extracts 72 8 8 0 cw rfl]
  exact BitVec.extractLsb'_eq_self

/-- Decoding the serial form is decoding the word and the payload it carries (R75). -/
theorem decode_wordBytes (cw : CommandWord) (payload : List Byte) :
    decode (wordBytes cw ++ payload) = decodeCommand cw payload :=
  congrArg (decodeCommand · payload) (join_bytes cw)

theorem and_ones_byte (x : Byte) : x &&& 0xFF#8 = x := by
  rw [show (0xFF#8 : Byte) = BitVec.allOnes 8 by decide, BitVec.and_allOnes]

theorem and_ones_word (x : Word) : x &&& 0xFFFF#16 = x := by
  rw [show (0xFFFF#16 : Word) = BitVec.allOnes 16 by decide, BitVec.and_allOnes]

/-- The opcode byte of a row. -/
def opcodeOf (m : Mnemonic) : Byte :=
  match m with
  | .clear => 0x01
  | .fill => 0x02
  | .setpix => 0x03
  | .getpix => 0x04
  | .copyimg => 0x05
  | .rchar => 0x10
  | .rtext => 0x11
  | .frect => 0x12
  | .dframe => 0x13
  | .init => 0x20
  | .flush => 0x21
  | .setinv => 0x22

/-- The row of a command. -/
def mnemonicOf (i : Instr) : Mnemonic :=
  match i with
  | .clear => .clear
  | .fill _ => .fill
  | .setpix _ _ _ => .setpix
  | .getpix _ _ => .getpix
  | .copyimg _ _ => .copyimg
  | .rchar _ _ _ _ _ => .rchar
  | .rtext _ _ _ _ _ _ => .rtext
  | .frect _ _ _ _ => .frect
  | .dframe => .dframe
  | .init => .init
  | .flush => .flush
  | .setinv _ => .setinv

/-- Every row's mask covers `OP`, and its pattern holds the opcode there (R63). -/
theorem table_opcodes : ∀ r ∈ opcodeTable, fieldOP r.mask = 0xFF ∧ fieldOP r.pattern = opcodeOf r.name := by decide

theorem opcodeOf_inj : ∀ m n : Mnemonic, opcodeOf m = opcodeOf n → m = n := by
  intro m n
  cases m <;> cases n <;> decide

/-- A row that selects a word has the word's opcode. -/
theorem opcode_of_selects {cw : CommandWord} {r : OpcodeRow} (hr : r ∈ opcodeTable) (h : rowSelects cw r = true) :
    fieldOP cw = opcodeOf r.name := by
  have h1 := ((rowSelects_iff cw r).1 h).1
  obtain ⟨h2, h3⟩ := table_opcodes r hr
  rw [h2, h3] at h1
  exact (and_ones_byte _).symm.trans h1

/-- A row that selects a word is the row `selectRow` finds: no word satisfies two rows (R63). -/
theorem selectRow_of_selects {cw : CommandWord} {r : OpcodeRow} (hr : r ∈ opcodeTable) (h : rowSelects cw r = true) :
    selectRow cw = some r.name := by
  unfold selectRow
  cases hf : opcodeTable.find? (rowSelects cw) with
  | none =>
    have := List.find?_eq_none.1 hf r hr
    exact absurd h this
  | some r' =>
    have h1 := List.find?_some hf
    have h2 := List.mem_of_find?_eq_some hf
    have h3 : opcodeOf r'.name = opcodeOf r.name := (opcode_of_selects h2 h1).symm.trans (opcode_of_selects hr h)
    simp [opcodeOf_inj _ _ h3]

/-- What `selectRow` finds is a row of the table that selects the word. -/
theorem selects_of_selectRow {cw : CommandWord} {m : Mnemonic} (h : selectRow cw = some m) :
    ∃ r ∈ opcodeTable, r.name = m ∧ rowSelects cw r = true := by
  unfold selectRow at h
  cases hf : opcodeTable.find? (rowSelects cw) with
  | none => simp [hf] at h
  | some r =>
    rw [hf] at h
    exact ⟨r, List.mem_of_find?_eq_some hf, by simpa using h, List.find?_some hf⟩

/-- A row of the table is what `selectRow` finds exactly where it selects the word (R63). -/
theorem selectRow_iff {cw : CommandWord} {r : OpcodeRow} (hr : r ∈ opcodeTable) :
    selectRow cw = some r.name ↔ rowSelects cw r = true := by
  constructor
  · intro h
    obtain ⟨r', hr', hn, hs⟩ := selects_of_selectRow h
    have hinj : ∀ a ∈ opcodeTable, ∀ b ∈ opcodeTable, a.name = b.name → a = b := by decide
    rwa [← hinj _ hr' _ hr hn]
  · exact selectRow_of_selects hr

end Sys2Proof
end

