-- ==== Sys2Proof/Laws/State.lean ====
section
/-! SUPPORT. What each update of the state does to each field. -/

namespace Sys2Proof.Machine

/-! ### emit -/

@[simp] theorem emit_cfg (e : Event) (s : State) : (emit e s).cfg = s.cfg := rfl
@[simp] theorem emit_fb (e : Event) (s : State) : (emit e s).fb = s.fb := rfl
@[simp] theorem emit_ctrl (e : Event) (s : State) : (emit e s).ctrl = s.ctrl := rfl
@[simp] theorem emit_status (e : Event) (s : State) : (emit e s).status = s.status := rfl
@[simp] theorem emit_pixval (e : Event) (s : State) : (emit e s).pixval = s.pixval := rfl
@[simp] theorem emit_xfail (e : Event) (s : State) : (emit e s).xfail = s.xfail := rfl
@[simp] theorem emit_cs (e : Event) (s : State) : (emit e s).cs = s.cs := rfl
@[simp] theorem emit_dc (e : Event) (s : State) : (emit e s).dc = s.dc := rfl
@[simp] theorem emit_rst (e : Event) (s : State) : (emit e s).rst = s.rst := rfl
@[simp] theorem emit_trace (e : Event) (s : State) : (emit e s).trace = s.trace ++ [e] := rfl
@[simp] theorem emit_busy (e : Event) (s : State) : (emit e s).busy = s.busy := rfl
@[simp] theorem emit_responses (e : Event) (s : State) : (emit e s).responses = s.responses := rfl
@[simp] theorem emit_pending (e : Event) (s : State) : (emit e s).pending = s.pending := rfl
@[simp] theorem emit_answers (e : Event) (s : State) : (emit e s).answers = s.answers := rfl
@[simp] theorem emit_delays (e : Event) (s : State) : (emit e s).delays = s.delays := rfl

/-! ### drive -/

@[simp] theorem drive_cfg (l : Line) (v : Level) (s : State) : (drive l v s).cfg = s.cfg := by cases l <;> rfl
@[simp] theorem drive_fb (l : Line) (v : Level) (s : State) : (drive l v s).fb = s.fb := by cases l <;> rfl
@[simp] theorem drive_ctrl (l : Line) (v : Level) (s : State) : (drive l v s).ctrl = s.ctrl := by cases l <;> rfl
@[simp] theorem drive_status (l : Line) (v : Level) (s : State) : (drive l v s).status = s.status := by cases l <;> rfl
@[simp] theorem drive_pixval (l : Line) (v : Level) (s : State) : (drive l v s).pixval = s.pixval := by cases l <;> rfl
@[simp] theorem drive_xfail (l : Line) (v : Level) (s : State) : (drive l v s).xfail = s.xfail := by cases l <;> rfl
@[simp] theorem drive_cs (l : Line) (v : Level) (s : State) : (drive l v s).cs = if l = .cs then v else s.cs := by cases l <;> rfl
@[simp] theorem drive_dc (l : Line) (v : Level) (s : State) : (drive l v s).dc = if l = .dc then v else s.dc := by cases l <;> rfl
@[simp] theorem drive_rst (l : Line) (v : Level) (s : State) : (drive l v s).rst = if l = .rst then v else s.rst := by cases l <;> rfl
@[simp] theorem drive_trace (l : Line) (v : Level) (s : State) : (drive l v s).trace = s.trace ++ [.drive l v] := by cases l <;> rfl
@[simp] theorem drive_busy (l : Line) (v : Level) (s : State) : (drive l v s).busy = s.busy := by cases l <;> rfl
@[simp] theorem drive_responses (l : Line) (v : Level) (s : State) : (drive l v s).responses = s.responses := by cases l <;> rfl
@[simp] theorem drive_pending (l : Line) (v : Level) (s : State) : (drive l v s).pending = s.pending := by cases l <;> rfl
@[simp] theorem drive_answers (l : Line) (v : Level) (s : State) : (drive l v s).answers = s.answers := by cases l <;> rfl
@[simp] theorem drive_delays (l : Line) (v : Level) (s : State) : (drive l v s).delays = s.delays := by cases l <;> rfl

/-! ### xfer -/

@[simp] theorem xfer_cfg (bs : List Byte) (s : State) : (xfer bs s).cfg = s.cfg := rfl
@[simp] theorem xfer_fb (bs : List Byte) (s : State) : (xfer bs s).fb = s.fb := rfl
@[simp] theorem xfer_ctrl (bs : List Byte) (s : State) : (xfer bs s).ctrl = s.ctrl := rfl
@[simp] theorem xfer_status (bs : List Byte) (s : State) : (xfer bs s).status = s.status := rfl
@[simp] theorem xfer_pixval (bs : List Byte) (s : State) : (xfer bs s).pixval = s.pixval := rfl
@[simp] theorem xfer_xfail (bs : List Byte) (s : State) : (xfer bs s).xfail = s.xfail := rfl
@[simp] theorem xfer_cs (bs : List Byte) (s : State) : (xfer bs s).cs = s.cs := rfl
@[simp] theorem xfer_dc (bs : List Byte) (s : State) : (xfer bs s).dc = s.dc := rfl
@[simp] theorem xfer_rst (bs : List Byte) (s : State) : (xfer bs s).rst = s.rst := rfl
@[simp] theorem xfer_trace (bs : List Byte) (s : State) : (xfer bs s).trace = s.trace ++ [.xfer bs] := rfl
@[simp] theorem xfer_busy (bs : List Byte) (s : State) : (xfer bs s).busy = s.busy := rfl
@[simp] theorem xfer_responses (bs : List Byte) (s : State) : (xfer bs s).responses = s.responses := rfl
@[simp] theorem xfer_pending (bs : List Byte) (s : State) : (xfer bs s).pending = s.pending := rfl
@[simp] theorem xfer_answers (bs : List Byte) (s : State) : (xfer bs s).answers = s.answers.tail := rfl
@[simp] theorem xfer_delays (bs : List Byte) (s : State) : (xfer bs s).delays = s.delays := rfl

/-! ### delayEvent -/

@[simp] theorem delayEvent_cfg (n : Nat) (s : State) : (delayEvent n s).cfg = s.cfg := rfl
@[simp] theorem delayEvent_fb (n : Nat) (s : State) : (delayEvent n s).fb = s.fb := rfl
@[simp] theorem delayEvent_ctrl (n : Nat) (s : State) : (delayEvent n s).ctrl = s.ctrl := rfl
@[simp] theorem delayEvent_status (n : Nat) (s : State) : (delayEvent n s).status = s.status := rfl
@[simp] theorem delayEvent_pixval (n : Nat) (s : State) : (delayEvent n s).pixval = s.pixval := rfl
@[simp] theorem delayEvent_xfail (n : Nat) (s : State) : (delayEvent n s).xfail = s.xfail := rfl
@[simp] theorem delayEvent_cs (n : Nat) (s : State) : (delayEvent n s).cs = s.cs := rfl
@[simp] theorem delayEvent_dc (n : Nat) (s : State) : (delayEvent n s).dc = s.dc := rfl
@[simp] theorem delayEvent_rst (n : Nat) (s : State) : (delayEvent n s).rst = s.rst := rfl
@[simp] theorem delayEvent_trace (n : Nat) (s : State) : (delayEvent n s).trace = s.trace ++ [.delay n] := rfl
@[simp] theorem delayEvent_busy (n : Nat) (s : State) : (delayEvent n s).busy = s.busy := rfl
@[simp] theorem delayEvent_responses (n : Nat) (s : State) : (delayEvent n s).responses = s.responses := rfl
@[simp] theorem delayEvent_pending (n : Nat) (s : State) : (delayEvent n s).pending = s.pending := rfl
@[simp] theorem delayEvent_answers (n : Nat) (s : State) : (delayEvent n s).answers = s.answers := rfl
@[simp] theorem delayEvent_delays (n : Nat) (s : State) : (delayEvent n s).delays = s.delays.tail := rfl

/-! ### openWrite -/

@[simp] theorem openWrite_cfg (w : FramedWrite) (s : State) : (openWrite w s).cfg = s.cfg := by simp [openWrite]
@[simp] theorem openWrite_fb (w : FramedWrite) (s : State) : (openWrite w s).fb = s.fb := by simp [openWrite]
@[simp] theorem openWrite_ctrl (w : FramedWrite) (s : State) : (openWrite w s).ctrl = s.ctrl := by simp [openWrite]
@[simp] theorem openWrite_status (w : FramedWrite) (s : State) : (openWrite w s).status = s.status := by simp [openWrite]
@[simp] theorem openWrite_pixval (w : FramedWrite) (s : State) : (openWrite w s).pixval = s.pixval := by simp [openWrite]
@[simp] theorem openWrite_xfail (w : FramedWrite) (s : State) : (openWrite w s).xfail = s.xfail := by simp [openWrite]
@[simp] theorem openWrite_cs (w : FramedWrite) (s : State) : (openWrite w s).cs = .low := by simp [openWrite]
@[simp] theorem openWrite_dc (w : FramedWrite) (s : State) : (openWrite w s).dc = w.level := by simp [openWrite]
@[simp] theorem openWrite_rst (w : FramedWrite) (s : State) : (openWrite w s).rst = s.rst := by simp [openWrite]
@[simp] theorem openWrite_trace (w : FramedWrite) (s : State) : (openWrite w s).trace = s.trace ++ [.drive .dc w.level, .drive .cs .low, .xfer w.bytes] := by simp [openWrite]
@[simp] theorem openWrite_busy (w : FramedWrite) (s : State) : (openWrite w s).busy = s.busy := by simp [openWrite]
@[simp] theorem openWrite_responses (w : FramedWrite) (s : State) : (openWrite w s).responses = s.responses := by simp [openWrite]
@[simp] theorem openWrite_pending (w : FramedWrite) (s : State) : (openWrite w s).pending = s.pending := by simp [openWrite]
@[simp] theorem openWrite_answers (w : FramedWrite) (s : State) : (openWrite w s).answers = s.answers.tail := by simp [openWrite]
@[simp] theorem openWrite_delays (w : FramedWrite) (s : State) : (openWrite w s).delays = s.delays := by simp [openWrite]

/-! ### transportFail -/

@[simp] theorem transportFail_cfg (s : State) : (transportFail s).cfg = s.cfg := rfl
@[simp] theorem transportFail_fb (s : State) : (transportFail s).fb = s.fb := rfl
@[simp] theorem transportFail_ctrl (s : State) : (transportFail s).ctrl = s.ctrl := rfl
@[simp] theorem transportFail_status (s : State) : (transportFail s).status = s.status := rfl
@[simp] theorem transportFail_pixval (s : State) : (transportFail s).pixval = s.pixval := rfl
@[simp] theorem transportFail_xfail (s : State) : (transportFail s).xfail = true := rfl
@[simp] theorem transportFail_cs (s : State) : (transportFail s).cs = .high := rfl
@[simp] theorem transportFail_dc (s : State) : (transportFail s).dc = s.dc := rfl
@[simp] theorem transportFail_rst (s : State) : (transportFail s).rst = s.rst := rfl
@[simp] theorem transportFail_trace (s : State) : (transportFail s).trace = s.trace ++ [.drive .cs .high] := rfl
@[simp] theorem transportFail_busy (s : State) : (transportFail s).busy = s.busy := rfl
@[simp] theorem transportFail_responses (s : State) : (transportFail s).responses = s.responses := rfl
@[simp] theorem transportFail_pending (s : State) : (transportFail s).pending = s.pending := rfl
@[simp] theorem transportFail_answers (s : State) : (transportFail s).answers = s.answers := rfl
@[simp] theorem transportFail_delays (s : State) : (transportFail s).delays = s.delays := rfl

/-! ### respond -/

@[simp] theorem respond_cfg (s : State) : (respond s).cfg = s.cfg := rfl
@[simp] theorem respond_fb (s : State) : (respond s).fb = s.fb := rfl
@[simp] theorem respond_ctrl (s : State) : (respond s).ctrl = s.ctrl := rfl
@[simp] theorem respond_status (s : State) : (respond s).status = s.status := rfl
@[simp] theorem respond_pixval (s : State) : (respond s).pixval = s.pixval := rfl
@[simp] theorem respond_xfail (s : State) : (respond s).xfail = s.xfail := rfl
@[simp] theorem respond_cs (s : State) : (respond s).cs = s.cs := rfl
@[simp] theorem respond_dc (s : State) : (respond s).dc = s.dc := rfl
@[simp] theorem respond_rst (s : State) : (respond s).rst = s.rst := rfl
@[simp] theorem respond_trace (s : State) : (respond s).trace = s.trace := rfl
@[simp] theorem respond_busy (s : State) : (respond s).busy = false := rfl
@[simp] theorem respond_responses (s : State) : (respond s).responses = s.responses ++ [responseWord s] := rfl
@[simp] theorem respond_pending (s : State) : (respond s).pending = s.pending := rfl
@[simp] theorem respond_answers (s : State) : (respond s).answers = s.answers := rfl
@[simp] theorem respond_delays (s : State) : (respond s).delays = s.delays := rfl

/-! ### takeCommand -/

@[simp] theorem takeCommand_cfg (s : State) : (takeCommand s).cfg = s.cfg := rfl
@[simp] theorem takeCommand_fb (s : State) : (takeCommand s).fb = s.fb := rfl
@[simp] theorem takeCommand_ctrl (s : State) : (takeCommand s).ctrl = s.ctrl := rfl
@[simp] theorem takeCommand_status (s : State) : (takeCommand s).status = s.status := rfl
@[simp] theorem takeCommand_pixval (s : State) : (takeCommand s).pixval = s.pixval := rfl
@[simp] theorem takeCommand_xfail (s : State) : (takeCommand s).xfail = s.xfail := rfl
@[simp] theorem takeCommand_cs (s : State) : (takeCommand s).cs = s.cs := rfl
@[simp] theorem takeCommand_dc (s : State) : (takeCommand s).dc = s.dc := rfl
@[simp] theorem takeCommand_rst (s : State) : (takeCommand s).rst = s.rst := rfl
@[simp] theorem takeCommand_trace (s : State) : (takeCommand s).trace = s.trace := rfl
@[simp] theorem takeCommand_busy (s : State) : (takeCommand s).busy = s.busy := rfl
@[simp] theorem takeCommand_responses (s : State) : (takeCommand s).responses = s.responses := rfl
@[simp] theorem takeCommand_pending (s : State) : (takeCommand s).pending = s.pending.tail := rfl
@[simp] theorem takeCommand_answers (s : State) : (takeCommand s).answers = s.answers := rfl
@[simp] theorem takeCommand_delays (s : State) : (takeCommand s).delays = s.delays := rfl

/-! ### present -/

@[simp] theorem present_cfg (c : Command) (s : State) : (present c s).cfg = s.cfg := rfl
@[simp] theorem present_fb (c : Command) (s : State) : (present c s).fb = s.fb := rfl
@[simp] theorem present_ctrl (c : Command) (s : State) : (present c s).ctrl = s.ctrl := rfl
@[simp] theorem present_status (c : Command) (s : State) : (present c s).status = s.status := rfl
@[simp] theorem present_pixval (c : Command) (s : State) : (present c s).pixval = s.pixval := rfl
@[simp] theorem present_xfail (c : Command) (s : State) : (present c s).xfail = s.xfail := rfl
@[simp] theorem present_cs (c : Command) (s : State) : (present c s).cs = s.cs := rfl
@[simp] theorem present_dc (c : Command) (s : State) : (present c s).dc = s.dc := rfl
@[simp] theorem present_rst (c : Command) (s : State) : (present c s).rst = s.rst := rfl
@[simp] theorem present_trace (c : Command) (s : State) : (present c s).trace = s.trace := rfl
@[simp] theorem present_busy (c : Command) (s : State) : (present c s).busy = s.busy := rfl
@[simp] theorem present_responses (c : Command) (s : State) : (present c s).responses = s.responses := rfl
@[simp] theorem present_pending (c : Command) (s : State) : (present c s).pending = c :: s.pending := rfl
@[simp] theorem present_answers (c : Command) (s : State) : (present c s).answers = s.answers := rfl
@[simp] theorem present_delays (c : Command) (s : State) : (present c s).delays = s.delays := rfl

/-! ### The response word -/

@[simp] theorem responseWord_respond (s : State) : responseWord (respond s) = responseWord s := rfl

end Sys2Proof.Machine
end

