-- ==== Sys2Proof/Laws/Memory.lean ====
section
/-! SUPPORT. The laws of the framebuffer's bytes (R40): what a read after a write gives, and that every operation keeps
the canonical form and the range of indices. -/

namespace Sys2Proof.Machine

/-- The memory lists only indices below `n`. -/
abbrev Memory.below (m : Memory) (n : Nat) : Prop := ∀ c ∈ m, c.1 < n

theorem Memory.wf_nil : Memory.wf [] := by simp [Memory.wf]

/-- The framebuffer after reset is in canonical form. -/
theorem reset_fb_wf : State.reset.fb.wf := Memory.wf_nil

theorem Memory.wf_tail {c : Host.Cell} {m : Memory} (h : Memory.wf (c :: m)) : Memory.wf m :=
  ⟨(List.pairwise_cons.1 h.1).2, fun d hd => h.2 d (List.mem_cons_of_mem _ hd)⟩

theorem Memory.wf_head_lt {c : Host.Cell} {m : Memory} (h : Memory.wf (c :: m)) : ∀ d ∈ m, c.1 < d.1 :=
  (List.pairwise_cons.1 h.1).1

theorem Memory.wf_cons {c : Host.Cell} {m : Memory} (hc : c.2 ≠ unlistedByte) (hlt : ∀ d ∈ m, c.1 < d.1)
    (h : Memory.wf m) : Memory.wf (c :: m) :=
  ⟨List.pairwise_cons.2 ⟨hlt, h.1⟩, fun d hd => by
    rcases List.mem_cons.1 hd with rfl | hd
    · exact hc
    · exact h.2 d hd⟩

/-- A memory all of whose indices lie above `a` reads `a` as unlisted. -/
theorem memRead_of_lt {m : Memory} {a : Nat} (h : ∀ c ∈ m, a < c.1) : memRead m a = unlistedByte := by
  cases m with
  | nil => rfl
  | cons c m =>
    have hc : a < c.1 := h c (by simp)
    simp only [memRead]
    rw [if_neg (by omega), if_neg (by omega)]

theorem memPut_eq_or (a : Nat) (v : Byte) (m : Memory) :
    (v = unlistedByte ∧ memPut a v m = m) ∨ (v ≠ unlistedByte ∧ memPut a v m = (a, v) :: m) := by
  by_cases h : v = unlistedByte
  · exact .inl ⟨h, by simp [memPut, h]⟩
  · exact .inr ⟨h, by simp [memPut, h]⟩

theorem memRead_memPut_self {m : Memory} {a : Nat} (v : Byte) (h : ∀ c ∈ m, a < c.1) :
    memRead (memPut a v m) a = v := by
  rcases memPut_eq_or a v m with ⟨hv, he⟩ | ⟨_, he⟩
  · rw [he, memRead_of_lt h, hv]
  · simp [he, memRead]

theorem memRead_memPut_ne {m : Memory} {a b : Nat} (v : Byte) (h : ∀ c ∈ m, a < c.1) (hab : b ≠ a) :
    memRead (memPut a v m) b = memRead m b := by
  rcases memPut_eq_or a v m with ⟨_, he⟩ | ⟨_, he⟩
  · rw [he]
  · rw [he, memRead]
    by_cases hlt : a < b
    · rw [if_pos hlt]
    · rw [if_neg hlt, if_neg (by omega), memRead_of_lt]
      intro c hc
      have := h c hc
      omega

/-- A read after a write to the same index gives the byte written (R40). -/
theorem memRead_memWrite_self {m : Memory} (h : m.wf) (a : Nat) (v : Byte) : memRead (memWrite m a v) a = v := by
  induction m with
  | nil => exact memRead_memPut_self v (by simp)
  | cons c m ih =>
    obtain ⟨b, w⟩ := c
    have hlt := Memory.wf_head_lt h
    simp only [memWrite]
    by_cases h1 : b < a
    · simp only [if_pos h1, memRead]
      exact ih (Memory.wf_tail h)
    · rw [if_neg h1]
      by_cases h2 : b = a
      · subst h2
        rw [if_pos rfl]
        exact memRead_memPut_self v hlt
      · rw [if_neg h2]
        refine memRead_memPut_self v fun d hd => ?_
        rcases List.mem_cons.1 hd with rfl | hd
        · show a < b
          omega
        · have : b < d.1 := hlt d hd
          omega

/-- A write leaves every other index alone (R40). -/
theorem memRead_memWrite_ne {m : Memory} (h : m.wf) {a b : Nat} (v : Byte) (hab : b ≠ a) :
    memRead (memWrite m a v) b = memRead m b := by
  induction m with
  | nil => exact memRead_memPut_ne v (by simp) hab
  | cons c m ih =>
    obtain ⟨d, w⟩ := c
    have hlt := Memory.wf_head_lt h
    simp only [memWrite]
    by_cases h1 : d < a
    · simp only [if_pos h1, memRead]
      rw [ih (Memory.wf_tail h)]
    · rw [if_neg h1]
      by_cases h2 : d = a
      · subst h2
        rw [if_pos rfl, memRead_memPut_ne v hlt hab, memRead]
        by_cases h3 : d < b
        · rw [if_pos h3]
        · rw [if_neg h3, if_neg (by omega), memRead_of_lt]
          intro e he
          have : d < e.1 := hlt e he
          omega
      · rw [if_neg h2]
        refine memRead_memPut_ne v (fun e he => ?_) hab
        rcases List.mem_cons.1 he with rfl | he
        · show a < d
          omega
        · have : d < e.1 := hlt e he
          omega

theorem memRead_memWrite {m : Memory} (h : m.wf) (a b : Nat) (v : Byte) :
    memRead (memWrite m a v) b = if b = a then v else memRead m b := by
  split
  · next hab => rw [hab, memRead_memWrite_self h]
  · next hab => exact memRead_memWrite_ne h v hab

theorem mem_memPut {a : Nat} {v : Byte} {m : Memory} {c : Host.Cell} (h : c ∈ memPut a v m) : c = (a, v) ∨ c ∈ m := by
  rcases memPut_eq_or a v m with ⟨_, he⟩ | ⟨_, he⟩
  · exact .inr (he ▸ h)
  · rw [he] at h
    simpa using h

theorem mem_memWrite {a : Nat} {v : Byte} {m : Memory} {c : Host.Cell} (h : c ∈ memWrite m a v) :
    c = (a, v) ∨ c ∈ m := by
  induction m with
  | nil => exact mem_memPut h
  | cons d m ih =>
    obtain ⟨b, w⟩ := d
    simp only [memWrite] at h
    split at h
    · rcases List.mem_cons.1 h with rfl | h
      · simp
      · rcases ih h with h | h
        · exact .inl h
        · exact .inr (List.mem_cons_of_mem _ h)
    · split at h
      · rcases mem_memPut h with h | h
        · exact .inl h
        · exact .inr (List.mem_cons_of_mem _ h)
      · exact mem_memPut h

theorem memPut_wf {a : Nat} {v : Byte} {m : Memory} (hlt : ∀ c ∈ m, a < c.1) (h : m.wf) : (memPut a v m).wf := by
  rcases memPut_eq_or a v m with ⟨_, he⟩ | ⟨hv, he⟩
  · rwa [he]
  · rw [he]
    exact Memory.wf_cons hv hlt h

/-- A write keeps the canonical form. -/
theorem memWrite_wf {m : Memory} (h : m.wf) (a : Nat) (v : Byte) : (memWrite m a v).wf := by
  induction m with
  | nil => exact memPut_wf (by simp) h
  | cons c m ih =>
    obtain ⟨b, w⟩ := c
    have hlt := Memory.wf_head_lt h
    simp only [memWrite]
    by_cases h1 : b < a
    · rw [if_pos h1]
      refine Memory.wf_cons (h.2 _ (by simp)) (fun d hd => ?_) (ih (Memory.wf_tail h))
      rcases mem_memWrite hd with rfl | hd
      · exact h1
      · exact hlt d hd
    · rw [if_neg h1]
      by_cases h2 : b = a
      · subst h2
        rw [if_pos rfl]
        exact memPut_wf hlt (Memory.wf_tail h)
      · rw [if_neg h2]
        refine memPut_wf (fun d hd => ?_) h
        rcases List.mem_cons.1 hd with rfl | hd
        · show a < b
          omega
        · have : b < d.1 := hlt d hd
          omega

theorem memWrite_below {m : Memory} {n : Nat} (h : m.below n) {a : Nat} (ha : a < n) (v : Byte) :
    (memWrite m a v).below n := by
  intro c hc
  rcases mem_memWrite hc with rfl | hc
  · exact ha
  · exact h c hc

/-! ### Sweeps -/

theorem foldl_memWrite_wf (v : Byte) : ∀ (is : List Nat) (m : Memory), m.wf →
    (is.foldl (fun m i => memWrite m i v) m).wf
  | [], _, h => h
  | i :: is, m, h => foldl_memWrite_wf v is (memWrite m i v) (memWrite_wf h i v)

theorem foldl_memWrite_below (v : Byte) {n : Nat} : ∀ (is : List Nat) (m : Memory), (∀ i ∈ is, i < n) → m.below n →
    Memory.below (is.foldl (fun m i => memWrite m i v) m) n
  | [], _, _, h => h
  | i :: is, m, hi, h =>
    foldl_memWrite_below v is (memWrite m i v) (fun j hj => hi j (List.mem_cons_of_mem _ hj))
      (memWrite_below h (hi i (by simp)) v)

theorem memRead_foldl_memWrite (v : Byte) (b : Nat) : ∀ (is : List Nat) (m : Memory), m.wf →
    memRead (is.foldl (fun m i => memWrite m i v) m) b = if b ∈ is then v else memRead m b
  | [], m, _ => by simp
  | i :: is, m, h => by
    rw [List.foldl_cons, memRead_foldl_memWrite v b is (memWrite m i v) (memWrite_wf h i v), memRead_memWrite h]
    by_cases h1 : b ∈ is <;> by_cases h2 : b = i <;> simp [h1, h2]

/-- A sweep writes every existing byte and no other (R82, R83). -/
theorem memRead_fillBytes (c : Config) {m : Memory} (h : m.wf) (v : Byte) (b : Nat) :
    memRead (fillBytes c m v) b = if b < c.L then v else memRead m b := by
  simp [fillBytes, memRead_foldl_memWrite v b _ m h]

theorem fillBytes_wf (c : Config) {m : Memory} (h : m.wf) (v : Byte) : (fillBytes c m v).wf :=
  foldl_memWrite_wf v _ m h

theorem fillBytes_below (c : Config) {m : Memory} (h : m.below c.L) (v : Byte) : (fillBytes c m v).below c.L :=
  foldl_memWrite_below v _ m (by simp) h

theorem copyBytes_wf : ∀ (bs : List Byte) (i : Nat) (m : Memory), m.wf → (copyBytes bs i m).wf
  | [], _, _, h => h
  | v :: bs, i, m, h => copyBytes_wf bs (i + 1) (memWrite m i v) (memWrite_wf h i v)

theorem copyBytes_below {n : Nat} : ∀ (bs : List Byte) (i : Nat) (m : Memory), i + bs.length ≤ n → m.below n →
    (copyBytes bs i m).below n
  | [], _, _, _, h => h
  | v :: bs, i, m, hn, h => by
    simp only [List.length_cons] at hn
    exact copyBytes_below bs (i + 1) (memWrite m i v) (by omega) (memWrite_below h (by omega) v)

/-- A copy writes the bytes at consecutive indices and no other (R88). -/
theorem memRead_copyBytes (b : Nat) : ∀ (bs : List Byte) (i : Nat) (m : Memory), m.wf →
    memRead (copyBytes bs i m) b = if i ≤ b ∧ b < i + bs.length then (bs[b - i]?).getD 0 else memRead m b
  | [], i, m, _ => by
    rw [if_neg (by simp)]
    rfl
  | v :: bs, i, m, h => by
    rw [copyBytes, memRead_copyBytes b bs (i + 1) (memWrite m i v) (memWrite_wf h i v), memRead_memWrite h]
    simp only [List.length_cons]
    by_cases h1 : b = i
    · subst h1
      rw [if_neg (by omega), if_pos rfl, if_pos (by omega)]
      simp
    · rw [if_neg h1]
      by_cases h2 : i + 1 ≤ b ∧ b < i + 1 + bs.length
      · rw [if_pos h2, if_pos (by omega)]
        have : b - i = b - (i + 1) + 1 := by omega
        rw [this, List.getElem?_cons_succ]
      · rw [if_neg h2, if_neg (by omega)]

/-- Memories in canonical form that read alike are equal. -/
theorem Memory.ext_read : ∀ {m m' : Memory}, m.wf → m'.wf → (∀ a, memRead m a = memRead m' a) → m = m'
  | [], [], _, _, _ => rfl
  | [], c :: m', _, h', he => by
    have h1 := he c.1
    have h2 : memRead (c :: m') c.1 = c.2 := by simp [memRead]
    exact absurd (h1 ▸ h2).symm (h'.2 c (by simp))
  | c :: m, [], h, _, he => by
    have h1 := he c.1
    have h2 : memRead (c :: m) c.1 = c.2 := by simp [memRead]
    exact absurd (h1 ▸ h2).symm (h.2 c (by simp))
  | (a, v) :: m, (b, w) :: m', h, h', he => by
    have ha : memRead ((a, v) :: m) a = v := by simp [memRead]
    have hb : memRead ((b, w) :: m') b = w := by simp [memRead]
    have hab : a = b := by
      rcases Nat.lt_trichotomy a b with hlt | heq | hlt
      · have h0 : memRead ((b, w) :: m') a = unlistedByte := by
          rw [memRead, if_neg (by omega), if_neg (by omega)]
        exact absurd (by rw [← ha, he a, h0]) (h.2 (a, v) (by simp))
      · exact heq
      · have h0 : memRead ((a, v) :: m) b = unlistedByte := by
          rw [memRead, if_neg (by omega), if_neg (by omega)]
        exact absurd (by rw [← hb, ← he b, h0]) (h'.2 (b, w) (by simp))
    subst hab
    have hvw : v = w := by rw [← ha, he a, hb]
    subst hvw
    have : m = m' := Memory.ext_read (Memory.wf_tail h) (Memory.wf_tail h') fun x => by
      by_cases hx : a < x
      · have := he x
        simpa [memRead, hx] using this
      · rw [memRead_of_lt, memRead_of_lt]
        · intro d hd
          have : a < d.1 := Memory.wf_head_lt h' d hd
          omega
        · intro d hd
          have : a < d.1 := Memory.wf_head_lt h d hd
          omega
    rw [this]

theorem length_memReadBlock (m : Memory) (i n : Nat) : (memReadBlock m i n).length = n := by simp [memReadBlock]

end Sys2Proof.Machine
end

