-- ==== Sys2Proof/Laws/Pixel.lean ====
section
/-! SUPPORT. The laws of the pixel accessor (R42 to R44, R80, R81) and of everything drawn through it: what a drawing
covers, and that it keeps the canonical form and the range of indices. -/

namespace Sys2Proof.Machine

/-! ### The coordinate map -/

theorem Config.H_eq (c : Config) : c.H = 8 * c.NP := by
  have := c.H_mod
  unfold Config.NP
  omega

/-- Every index the pixel accessor forms exists (R44). -/
theorem pixelIndex_lt {c : Config} {x y : Nat} (h : inBounds c x y) : pixelIndex c x y < c.L := by
  obtain ⟨hx, hy⟩ := h
  have h8 := Config.H_eq c
  have hp : y / 8 + 1 ≤ c.NP := by omega
  have hm : (y / 8 + 1) * c.W ≤ c.NP * c.W := Nat.mul_le_mul_right _ hp
  have : c.L = c.NP * c.W := Nat.mul_comm _ _
  rw [this, pixelIndex]
  have : (y / 8 + 1) * c.W = y / 8 * c.W + c.W := by ring
  omega

/-- The column and the page of a byte index (R43). -/
theorem pixelIndex_inj {c : Config} {x y x' y' : Nat} (hx : x < c.W) (hx' : x' < c.W)
    (h : pixelIndex c x y = pixelIndex c x' y') : x = x' ∧ y / 8 = y' / 8 := by
  unfold pixelIndex at h
  have h1 : (x + y / 8 * c.W) % c.W = x := by rw [Nat.add_mul_mod_self_right, Nat.mod_eq_of_lt hx]
  have h2 : (x' + y' / 8 * c.W) % c.W = x' := by rw [Nat.add_mul_mod_self_right, Nat.mod_eq_of_lt hx']
  have h3 : (x + y / 8 * c.W) / c.W = y / 8 := by
    rw [Nat.add_mul_div_right _ _ c.W_pos, Nat.div_eq_of_lt hx, Nat.zero_add]
  have h4 : (x' + y' / 8 * c.W) / c.W = y' / 8 := by
    rw [Nat.add_mul_div_right _ _ c.W_pos, Nat.div_eq_of_lt hx', Nat.zero_add]
  rw [h] at h1 h3
  exact ⟨h1.symm.trans h2, h3.symm.trans h4⟩

/-- Distinct pixels never share a bit (R43). -/
theorem pixel_inj {c : Config} {x y x' y' : Nat} (hx : x < c.W) (hx' : x' < c.W)
    (h : pixelIndex c x y = pixelIndex c x' y') (hb : pixelBit y = pixelBit y') : x = x' ∧ y = y' := by
  obtain ⟨h1, h2⟩ := pixelIndex_inj hx hx' h
  unfold pixelBit at hb
  exact ⟨h1, by omega⟩

theorem pixelBit_lt (y : Nat) : pixelBit y < 8 := Nat.mod_lt _ (by omega)

/-! ### One bit -/

theorem getLsbD_one_shiftLeft {b : Nat} (hb : b < 8) (j : Nat) : ((1 : Byte) <<< b).getLsbD j = decide (j = b) := by
  rw [BitVec.getLsbD_shiftLeft]
  by_cases h : j = b
  · subst h
    simp [hb]
  · have : (1#8).getLsbD (j - b) = true → ¬ j < b → False := by
      intro h1 h2
      have : j - b ≠ 0 := by omega
      simp [BitVec.getLsbD_one, this] at h1
    simp only [h, decide_false]
    by_contra hne
    simp only [Bool.not_eq_false, Bool.and_eq_true, Bool.not_eq_true', decide_eq_true_eq, decide_eq_false_iff_not] at hne
    exact this hne.2 hne.1.2

/-- The bit written holds the state, every other bit keeps its value (R80). -/
theorem getLsbD_writeBit (v : Byte) {b : Nat} (hb : b < 8) (p : PixelState) {j : Nat} (hj : j < 8) :
    (writeBit v b p).getLsbD j = if j = b then flagOfPixelState p else v.getLsbD j := by
  cases p
  · rw [writeBit, BitVec.getLsbD_and, BitVec.getLsbD_not, getLsbD_one_shiftLeft hb]
    by_cases h : j = b <;> simp [h, flagOfPixelState, hj]
  · rw [writeBit, BitVec.getLsbD_or, getLsbD_one_shiftLeft hb]
    by_cases h : j = b <;> simp [h, flagOfPixelState]

/-! ### The pixel accessor -/

theorem setPixel_wf (c : Config) {m : Memory} (h : m.wf) (x y : Nat) (p : PixelState) : (setPixel c m x y p).wf := by
  unfold setPixel
  split
  · exact memWrite_wf h _ _
  · exact h

theorem setPixel_below (c : Config) {m : Memory} (h : m.below c.L) (x y : Nat) (p : PixelState) :
    (setPixel c m x y p).below c.L := by
  unfold setPixel
  split
  · next hb => exact memWrite_below h (pixelIndex_lt hb) _
  · exact h

theorem setPixel_out {c : Config} {x y : Nat} (h : ¬ inBounds c x y) (m : Memory) (p : PixelState) :
    setPixel c m x y p = m := if_neg h

theorem memRead_setPixel {c : Config} {m : Memory} (h : m.wf) {x y : Nat} (hb : inBounds c x y) (p : PixelState) (a : Nat) :
    memRead (setPixel c m x y p) a =
      if a = pixelIndex c x y then writeBit (memRead m (pixelIndex c x y)) (pixelBit y) p else memRead m a := by
  rw [setPixel, if_pos hb, memRead_memWrite h]

/-- A pixel read after a pixel write (R87). -/
theorem getPixel_setPixel {c : Config} {m : Memory} (h : m.wf) (x y px py : Nat) (p : PixelState) :
    getPixel c (setPixel c m x y p) px py =
      if inBounds c x y ∧ px = x ∧ py = y then flagOfPixelState p else getPixel c m px py := by
  by_cases hb : inBounds c x y
  · by_cases hp : inBounds c px py
    · unfold getPixel
      rw [if_pos hp, if_pos hp, memRead_setPixel h hb]
      by_cases hi : pixelIndex c px py = pixelIndex c x y
      · rw [if_pos hi, getLsbD_writeBit _ (pixelBit_lt y) _ (pixelBit_lt py)]
        by_cases hj : pixelBit py = pixelBit y
        · obtain ⟨rfl, rfl⟩ := pixel_inj hp.1 hb.1 hi hj
          rw [if_pos rfl, if_pos ⟨hb, rfl, rfl⟩]
        · rw [if_neg hj, if_neg fun hh => hj (by rw [hh.2.2]), hi]
      · rw [if_neg hi, if_neg fun hh => hi (by rw [hh.2.1, hh.2.2])]
    · rw [if_neg fun hh => hp (by rw [hh.2.1, hh.2.2]; exact hb)]
      simp [getPixel, if_neg hp]
  · rw [setPixel_out hb, if_neg fun hh => hb hh.1]

/-! ### Drawings -/

/-- The function draws `p` on what `covers` says and keeps canonical form and range. -/
def Paints (c : Config) (p : PixelState) (covers : Nat → Nat → Prop) (f : Memory → Memory) : Prop :=
  ∀ m : Memory, m.wf → (f m).wf ∧ (m.below c.L → (f m).below c.L) ∧ Draws c m (f m) p covers

theorem Paints.congr {c : Config} {p : PixelState} {A B : Nat → Nat → Prop} {f : Memory → Memory}
    (h : Paints c p A f) (hab : ∀ px py, inBounds c px py → (A px py ↔ B px py)) : Paints c p B f := by
  intro m hm
  obtain ⟨h1, h2, h3, h4, h5⟩ := h m hm
  refine ⟨h1, h2, fun px py hb hB => h3 px py hb ((hab px py hb).2 hB), fun px py hb hB =>
    h4 px py hb fun hA => hB ((hab px py hb).1 hA), fun a ha => h5 a fun px py hb hA => ha px py hb ((hab px py hb).1 hA)⟩

theorem Paints.nothing (c : Config) (p : PixelState) : Paints c p (fun _ _ => False) id := fun _ hm =>
  ⟨hm, fun h => h, fun _ _ _ h => h.elim, fun _ _ _ _ => rfl, fun _ _ => rfl⟩

/-- One drawing after another covers what either covers. -/
theorem Paints.comp {c : Config} {p : PixelState} {A B : Nat → Nat → Prop} {f g : Memory → Memory}
    (hf : Paints c p A f) (hg : Paints c p B g) : Paints c p (fun px py => A px py ∨ B px py) (fun m => g (f m)) := by
  intro m hm
  obtain ⟨f1, f2, f3, f4, f5⟩ := hf m hm
  obtain ⟨g1, g2, g3, g4, g5⟩ := hg (f m) f1
  refine ⟨g1, fun h => g2 (f2 h), fun px py hb h => ?_, fun px py hb h => ?_, fun a ha => ?_⟩
  · by_cases hB : B px py
    · exact g3 px py hb hB
    · rw [g4 px py hb hB]
      exact f3 px py hb (h.resolve_right hB)
  · rw [g4 px py hb fun hB => h (.inr hB), f4 px py hb fun hA => h (.inl hA)]
  · rw [g5 a fun px py hb hB => ha px py hb (.inr hB), f5 a fun px py hb hA => ha px py hb (.inl hA)]

/-- A loop of drawings covers what some round covers. -/
theorem Paints.foldl {α : Type} {c : Config} {p : PixelState} {A : α → Nat → Nat → Prop} {f : Memory → α → Memory}
    (h : ∀ i, Paints c p (A i) fun m => f m i) : ∀ l : List α,
    Paints c p (fun px py => ∃ i ∈ l, A i px py) fun m => l.foldl f m
  | [] => (Paints.nothing c p).congr (by simp)
  | i :: l => ((h i).comp (Paints.foldl h l)).congr fun px py _ => by simp

theorem setPixel_paints (c : Config) (x y : Nat) (p : PixelState) :
    Paints c p (fun px py => px = x ∧ py = y) fun m => setPixel c m x y p := by
  intro m hm
  refine ⟨setPixel_wf c hm x y p, fun h => setPixel_below c h x y p, fun px py hb h => ?_, fun px py _ h => ?_,
    fun a ha => ?_⟩
  · rw [getPixel_setPixel hm, if_pos ⟨by rw [← h.1, ← h.2]; exact hb, h⟩]
  · rw [getPixel_setPixel hm, if_neg fun hh => h hh.2]
  · by_cases hb : inBounds c x y
    · rw [memRead_setPixel hm hb, if_neg fun he => ha x y hb ⟨rfl, rfl⟩ he.symm]
    · exact congrArg (memRead · a) (setPixel_out hb m p)

/-- A block covers its `w` columns and `h` rows. -/
theorem drawBlock_paints (c : Config) (x y w h : Nat) (p : PixelState) :
    Paints c p (fun px py => x ≤ px ∧ px < x + w ∧ y ≤ py ∧ py < y + h) fun m => drawBlock c m x y w h p := by
  have h1 : ∀ dx : Nat, Paints c p (fun px py => ∃ dy ∈ List.range h, px = x + dx ∧ py = y + dy) fun m =>
      (List.range h).foldl (fun m dy => setPixel c m (x + dx) (y + dy) p) m := fun dx =>
    Paints.foldl (fun dy => setPixel_paints c (x + dx) (y + dy) p) _
  refine (Paints.foldl h1 (List.range w)).congr fun px py _ => ?_
  simp only [List.mem_range]
  constructor
  · rintro ⟨dx, hdx, dy, hdy, rfl, rfl⟩
    omega
  · rintro ⟨a1, a2, a3, a4⟩
    exact ⟨px - x, by omega, py - y, by omega, by omega, by omega⟩

/-- The cell of `k` in which an offset falls. -/
theorem offset_cell {k n i : Nat} (hk : 0 < k) : (i * k ≤ n ∧ n < i * k + k) ↔ n / k = i := by
  rw [Nat.div_eq_iff hk]
  have : (i + 1) * k = i * k + k := by ring
  omega

/-- The glyph function covers the on bits of its glyph, each a block of the scale (R103). -/
theorem drawGlyph_paints (c : Config) (x y : Nat) (p : PixelState) (code : Nat) {scale : Nat} (hk : 0 < scale) :
    Paints c p (glyphCovers c x y code scale) fun m => drawGlyph c m x y p code scale := by
  have h0 : ∀ col row : Nat, Paints c p (fun px py => glyphOn c code col row = true ∧
      (x + col * scale ≤ px ∧ px < x + col * scale + scale ∧ y + row * scale ≤ py ∧ py < y + row * scale + scale))
      fun m => if glyphOn c code col row then
        drawBlock c m (x + col * scale) (y + row * scale) scale scale p else m := by
    intro col row
    by_cases hon : glyphOn c code col row = true
    · simp only [hon, if_true]
      exact (drawBlock_paints c _ _ _ _ p).congr (by simp)
    · simp only [hon]
      exact (Paints.nothing c p).congr (by simp)
  refine (Paints.foldl (fun col => Paints.foldl (h0 col) (List.range 7)) (List.range 5)).congr fun px py _ => ?_
  simp only [List.mem_range, glyphCovers]
  constructor
  · rintro ⟨col, hcol, row, hrow, hon, a1, a2, a3, a4⟩
    have b1 : (px - x) / scale = col := (offset_cell hk).1 (by omega)
    have b2 : (py - y) / scale = row := (offset_cell hk).1 (by omega)
    rw [b1, b2]
    exact ⟨by omega, by omega, by omega, by omega, hon⟩
  · rintro ⟨a1, a2, a3, a4, hon⟩
    have b1 := (offset_cell (n := px - x) hk).2 rfl
    have b2 := (offset_cell (n := py - y) hk).2 rfl
    exact ⟨(px - x) / scale, by omega, (py - y) / scale, by omega, hon, by omega, by omega, by omega, by omega⟩

theorem glyphStatus_ok {c : Config} {x y code scale : Nat} :
    glyphStatus c x y code scale = .ok ↔ x < c.W ∧ y < c.H ∧ code ≤ 127 ∧ 1 ≤ scale ∧ scale ≤ 3 := by
  unfold glyphStatus
  split
  · simp; omega
  · split
    · simp; omega
    · split
      · simp; omega
      · simp; omega

/-- What `RenderChar` does (R101): it draws its glyph where its three validations pass, and nothing otherwise. -/
theorem renderChar_paints (c : Config) (x y : Nat) (p : PixelState) (code scale : Nat) :
    Paints c p (fun px py => glyphStatus c x y code scale = .ok ∧ glyphCovers c x y code scale px py)
      fun m => (renderChar c m x y p code scale).2 := by
  by_cases h : glyphStatus c x y code scale = .ok
  · have hk : 0 < scale := (glyphStatus_ok.1 h).2.2.2.1
    simp only [renderChar, h, if_true, true_and]
    exact drawGlyph_paints c x y p code hk
  · simp only [renderChar, h, if_false, false_and]
    exact Paints.nothing c p

theorem drawChars_paints (c : Config) (x y : Nat) (p : PixelState) (scale : Nat) : ∀ (text : List Byte) (n : Nat),
    Paints c p (fun px py => ∃ i code, text[i]? = some code ∧
        glyphStatus c (drawColumn x (n + i) scale) y code.toNat scale = .ok ∧
        glyphCovers c (drawColumn x (n + i) scale) y code.toNat scale px py)
      fun m => drawChars c x y p scale text n m
  | [], _ => (Paints.nothing c p).congr (by simp)
  | code :: text, n => by
    have h0 : Paints c p (fun px py => glyphStatus c (drawColumn x n scale) y code.toNat scale = .ok ∧
        glyphCovers c (drawColumn x n scale) y code.toNat scale px py)
        fun m => if c.W < drawColumn x n scale then m
          else (renderChar c m (drawColumn x n scale) y p code.toNat scale).2 := by
      by_cases hs : c.W < drawColumn x n scale
      · simp only [hs, if_true]
        refine (Paints.nothing c p).congr fun px py _ => ?_
        simp only [false_iff]
        rintro ⟨h1, _⟩
        have := (glyphStatus_ok.1 h1).1
        omega
      · simp only [hs, if_false]
        exact renderChar_paints c _ y p _ scale
    refine (h0.comp (drawChars_paints c x y p scale text (n + 1))).congr fun px py _ => ?_
    constructor
    · rintro (h | ⟨i, code', h1, h2⟩)
      · exact ⟨0, code, by simp, h⟩
      · exact ⟨i + 1, code', by simpa using h1, by rw [show n + (i + 1) = n + 1 + i by omega]; exact h2⟩
    · rintro ⟨i, code', h1, h2⟩
      cases i with
      | zero =>
        simp only [List.length_cons, Nat.zero_lt_succ, getElem?_pos, List.getElem_cons_zero, Option.some.injEq] at h1
        subst h1
        exact .inl h2
      | succ i =>
        exact .inr ⟨i, code', by simpa using h1, by rw [show n + 1 + i = n + (i + 1) by omega]; exact h2⟩

/-- What RTEXT draws (R105). -/
theorem renderText_paints (c : Config) (x y : Nat) (p : PixelState) (text : List Byte) (scale : Nat) :
    Paints c p (textCovers c x y scale text) fun m => renderText c m x y p text scale := by
  by_cases hg : c.W ≤ x + 2 ∨ c.H ≤ y ∨ 3 < scale
  · simp only [renderText, hg, if_true]
    refine (Paints.nothing c p).congr fun px py _ => ?_
    simp only [false_iff, textCovers]
    rintro ⟨h1, h2, _, h4, _⟩
    omega
  · simp only [renderText, hg, if_false]
    refine (drawChars_paints c x y p scale text 0).congr fun px py _ => ?_
    simp only [glyphStatus_ok, textCovers, Nat.zero_add, drawColumn]
    constructor
    · rintro ⟨i, code, h1, ⟨h2, h3, h4, h5, h6⟩, h7⟩
      exact ⟨by omega, h3, h5, h6, i, code, h1, h4, h2, h7⟩
    · rintro ⟨_, h3, h5, h6, i, code, h1, h4, h2, h7⟩
      exact ⟨i, code, h1, ⟨h2, h3, h4, h5, h6⟩, h7⟩

/-- What `FillRect` fills (R110). -/
theorem fillRect_paints (c : Config) (x y w h : Nat) :
    Paints c .set (rectCovers x y w h) fun m => fillRect c m x y w h := by
  refine (drawBlock_paints c (x + 2) y (min w (c.W - (x + 2))) (min h (c.H - y)) .set).congr fun px py hb => ?_
  obtain ⟨hx, hy⟩ := hb
  simp only [rectCovers]
  omega

/-- The full loops of `FillRect` fill the same rectangle (R108, R110). -/
theorem fillRectLoops_paints (c : Config) (x y w h : Nat) :
    Paints c .set (rectCovers x y w h) fun m => fillRectLoops c m x y w h :=
  drawBlock_paints c (x + 2) y w h .set

/-- What DFRAME fills (R112). -/
theorem drawRects_paints (c : Config) : ∀ rects : List Rect,
    Paints c .set (fun px py => ∃ r ∈ rects, rectCovers r.x.toNat r.y.toNat r.width.toNat r.height.toNat px py)
      fun m => drawRects c m rects :=
  Paints.foldl fun r => fillRect_paints c r.x.toNat r.y.toNat r.width.toNat r.height.toNat

/-- A byte's pixel (R43). -/
theorem pixel_of_byte {c : Config} {i b : Nat} (hi : i < c.L) (hb : b < 8) :
    inBounds c (i % c.W) (i / c.W * 8 + b) ∧ pixelIndex c (i % c.W) (i / c.W * 8 + b) = i ∧
      pixelBit (i / c.W * 8 + b) = b := by
  have h8 := Config.H_eq c
  have hW := c.W_pos
  have hp : i / c.W < c.NP := Nat.div_lt_of_lt_mul (by rw [show c.W * c.NP = c.L from rfl]; exact hi)
  refine ⟨⟨Nat.mod_lt _ hW, by omega⟩, ?_, by unfold pixelBit; omega⟩
  unfold pixelIndex
  rw [show (i / c.W * 8 + b) / 8 = i / c.W by omega]
  rw [Nat.mod_add_div']

/-- Framebuffers in canonical form and range that show the same pixels are equal (R43). -/
theorem Memory.ext_pixel {c : Config} {m m' : Memory} (h : m.wf) (h' : m'.wf) (hb : m.below c.L) (hb' : m'.below c.L)
    (hp : ∀ px py, inBounds c px py → getPixel c m px py = getPixel c m' px py) : m = m' := by
  have hout : ∀ {m : Memory}, m.wf → m.below c.L → ∀ a, c.L ≤ a → memRead m a = unlistedByte := by
    intro m
    induction m with
    | nil => intros; rfl
    | cons d m ih =>
      intro hw hb a ha
      have : d.1 < c.L := hb d (by simp)
      rw [memRead, if_pos (by omega)]
      exact ih (Memory.wf_tail hw) (fun e he => hb e (List.mem_cons_of_mem _ he)) a ha
  refine Memory.ext_read h h' fun a => ?_
  by_cases ha : a < c.L
  · refine BitVec.eq_of_getLsbD_eq fun j hj => ?_
    obtain ⟨hin, hidx, hbit⟩ := pixel_of_byte ha hj
    have := hp _ _ hin
    simpa [getPixel, hin, hidx, hbit] using this
  · rw [hout h hb a (by omega), hout h' hb' a (by omega)]

end Sys2Proof.Machine
end

