-- ==== Sys2Proof/Laws/Transport.lean ====
section
/-! SUPPORT. The laws of the framed writes (R120, R123, R124, R155, R157): what a list of them does under each behaviour
of the transport, stated once, and what their events say of the lines and of the framing rules. -/

namespace Sys2Proof.Machine

/-- The four events of a framed write (R123, R124). -/
def writeEvents (w : FramedWrite) : List Event :=
  [.drive .dc w.level, .drive .cs .low, .xfer w.bytes, .drive .cs .high]

/-- The state after a list of framed writes all answered ok. -/
def afterWrites (ws : List FramedWrite) (s : State) : State :=
  { s with
    trace := s.trace ++ ws.flatMap writeEvents
    answers := s.answers.drop ws.length
    cs := if ws = [] then s.cs else .high
    dc := (ws.getLast?.map FramedWrite.level).getD s.dc }

@[simp] theorem afterWrites_cfg (ws : List FramedWrite) (s : State) : (afterWrites ws s).cfg = s.cfg := rfl
@[simp] theorem afterWrites_fb (ws : List FramedWrite) (s : State) : (afterWrites ws s).fb = s.fb := rfl
@[simp] theorem afterWrites_ctrl (ws : List FramedWrite) (s : State) : (afterWrites ws s).ctrl = s.ctrl := rfl
@[simp] theorem afterWrites_status (ws : List FramedWrite) (s : State) : (afterWrites ws s).status = s.status := rfl
@[simp] theorem afterWrites_pixval (ws : List FramedWrite) (s : State) : (afterWrites ws s).pixval = s.pixval := rfl
@[simp] theorem afterWrites_xfail (ws : List FramedWrite) (s : State) : (afterWrites ws s).xfail = s.xfail := rfl
@[simp] theorem afterWrites_rst (ws : List FramedWrite) (s : State) : (afterWrites ws s).rst = s.rst := rfl
@[simp] theorem afterWrites_busy (ws : List FramedWrite) (s : State) : (afterWrites ws s).busy = s.busy := rfl
@[simp] theorem afterWrites_responses (ws : List FramedWrite) (s : State) :
    (afterWrites ws s).responses = s.responses := rfl
@[simp] theorem afterWrites_pending (ws : List FramedWrite) (s : State) : (afterWrites ws s).pending = s.pending := rfl
@[simp] theorem afterWrites_delays (ws : List FramedWrite) (s : State) : (afterWrites ws s).delays = s.delays := rfl
@[simp] theorem afterWrites_trace (ws : List FramedWrite) (s : State) :
    (afterWrites ws s).trace = s.trace ++ ws.flatMap writeEvents := rfl
@[simp] theorem afterWrites_answers (ws : List FramedWrite) (s : State) :
    (afterWrites ws s).answers = s.answers.drop ws.length := rfl
@[simp] theorem afterWrites_cs (ws : List FramedWrite) (s : State) :
    (afterWrites ws s).cs = if ws = [] then s.cs else .high := rfl
@[simp] theorem afterWrites_dc (ws : List FramedWrite) (s : State) :
    (afterWrites ws s).dc = (ws.getLast?.map FramedWrite.level).getD s.dc := rfl

@[simp] theorem afterWrites_nil (s : State) : afterWrites [] s = s := by simp [afterWrites]

/-- The state after one completed framed write. -/
theorem afterWrites_single (w : FramedWrite) (s : State) : drive .cs .high (openWrite w s) = afterWrites [w] s := by
  simp [afterWrites, drive, emit, openWrite, xfer, writeEvents, List.drop_one]

theorem afterWrites_cons (w : FramedWrite) (ws : List FramedWrite) (s : State) :
    afterWrites ws (afterWrites [w] s) = afterWrites (w :: ws) s := by
  cases ws <;>
    simp [afterWrites, List.drop_one, Nat.add_comm, List.getLast?_cons]

/-- The next transfer's answer after one completed write is the one after next before it. -/
theorem answerAt_afterWrites (ws : List FramedWrite) (s : State) (k : Nat) :
    answerAt (afterWrites ws s) k = answerAt s (ws.length + k) := by
  have hc : (ws.flatMap writeEvents).countP Event.isXfer = ws.length := by
    induction ws with
    | nil => rfl
    | cons w ws ih =>
      rw [List.flatMap_cons, List.countP_append, ih]
      simp [writeEvents, Event.isXfer, List.countP_cons, Nat.add_comm]
  simp [answerAt, List.getElem?_drop, List.countP_append, hc, Nat.add_assoc]

theorem sendWrite_ok {w : FramedWrite} {s : State} (h : answerAt s 0 = .ok) :
    sendWrite w s = .going (afterWrites [w] s) := by
  rw [← afterWrites_single]
  simp [sendWrite, h]

theorem sendWrite_fail {w : FramedWrite} {s : State} (h : answerAt s 0 = .fail) :
    sendWrite w s = .failed (transportFail (openWrite w s)) := by simp [sendWrite, h]

theorem sendWrite_never {w : FramedWrite} {s : State} (h : answerAt s 0 = .never) :
    sendWrite w s = .hung (openWrite w s) := by simp [sendWrite, h]

/-- All transfers answered ok: every write is made, in order. -/
theorem sendAll_ok : ∀ {ws : List FramedWrite} {s : State}, transfersOk s ws.length →
    sendAll ws s = .going (afterWrites ws s)
  | [], s, _ => by simp [sendAll]
  | w :: ws, s, h => by
    have h1 : transfersOk (afterWrites [w] s) ws.length := fun k hk => by
      rw [answerAt_afterWrites]
      exact h _ (by simp; omega)
    rw [sendAll, sendWrite_ok (h 0 (by simp))]
    show sendAll ws (afterWrites [w] s) = _
    rw [sendAll_ok h1, afterWrites_cons]

/-- The first transfer not answered ok decides how a list of writes ends. -/
theorem sendAll_stops : ∀ {pre : List FramedWrite} {w : FramedWrite} {post : List FramedWrite} {s : State},
    transfersOk s pre.length → answerAt s pre.length ≠ .ok →
    sendAll (pre ++ w :: post) s = (sendWrite w (afterWrites pre s)).andThen (sendAll post)
  | [], w, post, s, _, _ => by simp [sendAll]
  | v :: pre, w, post, s, h, hn => by
    have h1 : transfersOk (afterWrites [v] s) pre.length := fun k hk => by
      rw [answerAt_afterWrites]
      exact h _ (by simp; omega)
    have h2 : answerAt (afterWrites [v] s) pre.length ≠ .ok := by
      rw [answerAt_afterWrites, Nat.add_comm]
      exact hn
    rw [List.cons_append, sendAll, sendWrite_ok (h 0 (by simp))]
    show sendAll (pre ++ w :: post) (afterWrites [v] s) = _
    rw [sendAll_stops h1 h2, afterWrites_cons]

theorem sendAll_fail {pre : List FramedWrite} {w : FramedWrite} {post : List FramedWrite} {s : State}
    (h : transfersOk s pre.length) (hf : answerAt s pre.length = .fail) :
    sendAll (pre ++ w :: post) s = .failed (transportFail (openWrite w (afterWrites pre s))) := by
  rw [sendAll_stops h (by simp [hf]), sendWrite_fail (by rw [answerAt_afterWrites]; exact hf)]
  rfl

theorem sendAll_never {pre : List FramedWrite} {w : FramedWrite} {post : List FramedWrite} {s : State}
    (h : transfersOk s pre.length) (hf : answerAt s pre.length = .never) :
    sendAll (pre ++ w :: post) s = .hung (openWrite w (afterWrites pre s)) := by
  rw [sendAll_stops h (by simp [hf]), sendWrite_never (by rw [answerAt_afterWrites]; exact hf)]
  rfl

/-- Everything a list of framed writes can do. -/
theorem sendAll_cases (ws : List FramedWrite) (s : State) :
    sendAll ws s = .going (afterWrites ws s) ∨
    (∃ pre w post, ws = pre ++ w :: post ∧
      sendAll ws s = .failed (transportFail (openWrite w (afterWrites pre s)))) ∨
    (∃ pre w post, ws = pre ++ w :: post ∧ sendAll ws s = .hung (openWrite w (afterWrites pre s))) := by
  induction ws generalizing s with
  | nil => exact .inl (by simp [sendAll])
  | cons w ws ih =>
    cases h : answerAt s 0 with
    | ok =>
      have he : sendAll (w :: ws) s = sendAll ws (afterWrites [w] s) := by rw [sendAll, sendWrite_ok h]; rfl
      rw [he]
      rcases ih (afterWrites [w] s) with h1 | ⟨pre, v, post, hw, h1⟩ | ⟨pre, v, post, hw, h1⟩
      · exact .inl (by rw [h1, afterWrites_cons])
      · exact .inr (.inl ⟨w :: pre, v, post, by simp [hw], by rw [h1, afterWrites_cons]⟩)
      · exact .inr (.inr ⟨w :: pre, v, post, by simp [hw], by rw [h1, afterWrites_cons]⟩)
    | fail => exact .inr (.inl ⟨[], w, ws, rfl, by rw [sendAll, sendWrite_fail h]; simp [Progress.andThen]⟩)
    | never => exact .inr (.inr ⟨[], w, ws, rfl, by rw [sendAll, sendWrite_never h]; simp [Progress.andThen]⟩)

theorem sendAll_single (w : FramedWrite) (s : State) : sendWrite w s = sendAll [w] s := by
  simp only [sendAll]
  cases sendWrite w s <;> rfl

/-! ### The writes of a flush -/

theorem length_pageWrites (c : Config) (m : Memory) (p : Nat) : (pageWrites c m p).length = 4 := rfl

theorem length_flatMap_range {α : Type} (f : Nat → List α) (k : Nat) (h : ∀ i, (f i).length = k) (n : Nat) :
    ((List.range n).flatMap f).length = k * n := by
  simp [List.length_flatMap, h, Nat.mul_comm]

theorem length_flushWrites (c : Config) (m : Memory) : (flushWrites c m).length = 4 * c.NP :=
  length_flatMap_range _ 4 (fun _ => rfl) c.NP

theorem writeEvents_cmdWrite (b : Byte) : writeEvents (cmdWrite b) = commandEvents b := rfl

theorem writeEvents_dataWrite (bs : List Byte) : writeEvents (dataWrite bs) = dataEvents bs := rfl

theorem length_writeEvents (ws : List FramedWrite) : (ws.flatMap writeEvents).length = 4 * ws.length := by
  simp [List.length_flatMap, writeEvents, Nat.mul_comm]

theorem pageSelect_eq (p : Nat) : pageSelect p = BitVec.ofNat 8 (0xB0 + p) := by
  simp [pageSelect, BitVec.ofNat_add]

theorem events_pageWrites (c : Config) (m : Memory) (p : Nat) :
    (pageWrites c m p).flatMap writeEvents = pageEvents c p (memReadBlock m (p * c.W) c.W) := by
  simp [pageWrites, pageEvents, writeEvents_cmdWrite, writeEvents_dataWrite, pageSelect_eq]

/-- The events of a flush's writes (R130). -/
theorem events_flushWrites (c : Config) (m : Memory) : (flushWrites c m).flatMap writeEvents = flushEvents c m := by
  simp only [flushWrites, flushEvents, List.flatMap_assoc, events_pageWrites]
  rfl

theorem events_commands (bs : List Byte) : (bs.map cmdWrite).flatMap writeEvents = bs.flatMap commandEvents := by
  rw [List.flatMap_map]
  rfl

theorem flushWrites_ne_nil (c : Config) (m : Memory) : flushWrites c m ≠ [] := by
  intro h
  have h1 := length_flushWrites c m
  have h2 := Config.H_eq c
  have h3 := c.H_pos
  rw [h] at h1
  simp at h1
  omega

/-- The last write of a flush is a data block, so DC ends high (R129). -/
theorem getLast_flushWrites (c : Config) (m : Memory) :
    (flushWrites c m).getLast?.map FramedWrite.level = some .high := by
  have h2 := Config.H_eq c
  have h3 := c.H_pos
  obtain ⟨n, hn⟩ : ∃ n, c.NP = n + 1 := ⟨c.NP - 1, by omega⟩
  rw [flushWrites, hn, List.range_succ, List.flatMap_append]
  simp [pageWrites, dataWrite]

/-! ### The lines and the framing rules -/

theorem levelAfter_append (line : Line) (v : Level) (es fs : List Event) :
    levelAfter line v (es ++ fs) = levelAfter line (levelAfter line v es) fs := by
  simp [levelAfter, List.foldl_append]

theorem levelAfter_cs_writes (ws : List FramedWrite) (v : Level) :
    levelAfter .cs v (ws.flatMap writeEvents) = if ws = [] then v else .high := by
  induction ws generalizing v with
  | nil => rfl
  | cons w ws ih =>
    rw [List.flatMap_cons, levelAfter_append, ih]
    simp [levelAfter, writeEvents]

theorem levelAfter_dc_writes (ws : List FramedWrite) (v : Level) :
    levelAfter .dc v (ws.flatMap writeEvents) = (ws.getLast?.map FramedWrite.level).getD v := by
  induction ws generalizing v with
  | nil => rfl
  | cons w ws ih =>
    rw [List.flatMap_cons, levelAfter_append, ih]
    cases ws <;> simp [levelAfter, writeEvents, List.getLast?_cons]

theorem levelAfter_rst_writes (ws : List FramedWrite) (v : Level) :
    levelAfter .rst v (ws.flatMap writeEvents) = v := by
  induction ws generalizing v with
  | nil => rfl
  | cons w ws ih =>
    rw [List.flatMap_cons, levelAfter_append, ih]
    simp [levelAfter, writeEvents]

theorem afterWrites_linesOk {s : State} (h : s.LinesOk) (ws : List FramedWrite) : (afterWrites ws s).LinesOk := by
  obtain ⟨h1, h2, h3⟩ := h
  refine ⟨?_, ?_, ?_⟩
  · simp [levelAfter_append, ← h1, levelAfter_cs_writes]
  · simp [levelAfter_append, ← h2, levelAfter_dc_writes]
  · simp [levelAfter_append, ← h3, levelAfter_rst_writes]

theorem openWrite_linesOk {s : State} (h : s.LinesOk) (w : FramedWrite) : (openWrite w s).LinesOk := by
  obtain ⟨h1, h2, h3⟩ := h
  refine ⟨?_, ?_, ?_⟩
  · simp [levelAfter]
  · simp [levelAfter]
  · simp [levelAfter, h3]

theorem drive_linesOk {s : State} (h : s.LinesOk) (l : Line) (v : Level) : (drive l v s).LinesOk := by
  obtain ⟨h1, h2, h3⟩ := h
  cases l <;> refine ⟨?_, ?_, ?_⟩ <;> simp [levelAfter, h1, h2, h3]

theorem transportFail_linesOk {s : State} (h : s.LinesOk) : (transportFail s).LinesOk := drive_linesOk h .cs .high

theorem delayEvent_linesOk {s : State} (h : s.LinesOk) (n : Nat) : (delayEvent n s).LinesOk := by
  obtain ⟨h1, h2, h3⟩ := h
  refine ⟨?_, ?_, ?_⟩ <;> simp [levelAfter, h1, h2, h3]

/-- A write whose block has the length its DC level asks for, on a display of `W` columns. -/
def FramedWrite.fits (W : Nat) (w : FramedWrite) : Prop :=
  w.bytes.length = blockLength W w.level

theorem cmdWrite_fits (W : Nat) (b : Byte) : (cmdWrite b).fits W := rfl

theorem flushWrites_fit (c : Config) (m : Memory) : ∀ w ∈ flushWrites c m, w.fits c.W := by
  intro w hw
  simp only [flushWrites, List.mem_flatMap] at hw
  obtain ⟨p, _, hw⟩ := hw
  simp only [pageWrites, List.mem_cons, List.not_mem_nil, or_false] at hw
  rcases hw with rfl | rfl | rfl | rfl
  · rfl
  · rfl
  · rfl
  · exact length_memReadBlock m _ _

theorem busRun_append (W : Nat) (es fs : List Event) (b : BusPhase × Level) :
    busRun W (es ++ fs) b = (busRun W es b).bind (busRun W fs) := by
  induction es generalizing b with
  | nil => rfl
  | cons e es ih =>
    simp only [List.cons_append, busRun]
    cases busStep W b e with
    | none => rfl
    | some b' => exact ih b'

theorem busRun_open {W : Nat} {w : FramedWrite} (h : w.fits W) (d : Level) :
    busRun W [.drive .dc w.level, .drive .cs .low, .xfer w.bytes] (.released, d) = some (.transferred, w.level) := by
  simp only [FramedWrite.fits] at h
  simp [busRun, busStep, h]

theorem busRun_writes {W : Nat} {ws : List FramedWrite} (h : ∀ w ∈ ws, w.fits W) (d : Level) :
    busRun W (ws.flatMap writeEvents) (.released, d) =
      some (.released, (ws.getLast?.map FramedWrite.level).getD d) := by
  induction ws generalizing d with
  | nil => rfl
  | cons w ws ih =>
    have hw : busRun W (writeEvents w) (.released, d) = some (.released, w.level) := by
      have := busRun_append W [.drive .dc w.level, .drive .cs .low, .xfer w.bytes] [.drive .cs .high] (.released, d)
      rw [busRun_open (h w (by simp)) d] at this
      exact this
    rw [List.flatMap_cons, busRun_append, hw]
    show busRun W (ws.flatMap writeEvents) (.released, w.level) = _
    rw [ih fun v hv => h v (List.mem_cons_of_mem _ hv)]
    cases ws <;> simp [List.getLast?_cons]

end Sys2Proof.Machine
end

