-- ==== Sys2Proof/Laws/Exec.lean ====
section
/-! SUPPORT. What a command that runs can do, said once: the admission of R70, the drawing commands, INIT, FLUSH and
SETINV. Every claim about all commands is derived from these. -/

namespace Sys2Proof.Machine

/-- A command whose admission answers a next state was presented to an idle CORE (R71). -/
theorem whenIdle_next {s t : State} {k : Host.Outcome State Fault Refusal} (h : whenIdle s k = .next t) :
    s.busy = false ∧ k = .next t := by
  unfold whenIdle at h
  split at h
  · cases h
  · next hb => exact ⟨by simpa using hb, h⟩

/-- A command other than INIT that answers a next state was admitted (R70). -/
theorem whenReady_next {s t : State} {k : Host.Outcome State Fault Refusal} (h : whenReady s k = .next t) :
    s.admitsAll ∧ k = .next t := by
  obtain ⟨h1, h2⟩ := whenIdle_next h
  split at h2
  · next hc => exact ⟨⟨h1, hc⟩, h2⟩
  · cases h2

theorem whenIdle_run {s : State} (h : s.busy = false) (k : Host.Outcome State Fault Refusal) : whenIdle s k = k := by
  simp [whenIdle, h]

theorem whenReady_run {s : State} (h : s.admitsAll) (k : Host.Outcome State Fault Refusal) : whenReady s k = k := by
  simp [whenReady, whenIdle, h.1, h.2]

theorem complete_next {s t : State} (h : complete s = .next t) : t = respond s := by
  cases h
  rfl

/-- The command is one of the nine of the framebuffer and rasterizer families. -/
def isDrawing (i : Instr) : Prop := i ≠ .init ∧ i ≠ .flush ∧ ∀ v, i ≠ .setinv v

theorem isDrawing_or (i : Instr) : isDrawing i ∨ i = .init ∨ i = .flush ∨ ∃ v, i = .setinv v := by
  cases i <;> simp [isDrawing]

/-- Everything a step that answers a next state can do: wait, or run a command of an idle CORE (R71, R157, R172). -/
theorem step_cases {s t : State} (h : step s = .next t) :
    t = s ∨ s.busy = false ∧ ∃ i, exec i (takeCommand s) = .next t := by
  unfold step at h
  split at h
  · cases h
    exact .inl rfl
  · next hb =>
    split at h
    · cases h
      exact .inl rfl
    · split at h
      · cases h
      · exact .inr ⟨by simpa using hb, _, h⟩

/-- A machine whose step leaves a state as it is stays in that state. -/
theorem run_of_step {M : Host.Core} {s : M.State} (h : M.step s = .next s) (n : Nat) : M.run n s = .next s := by
  induction n with
  | zero => rfl
  | succ n ih =>
    rw [Host.Core.run, h]
    exact ih

/-- Everything a framebuffer or rasterizer command that runs can do: a new framebuffer, still canonical and in range; a
new STATUS if it is RCHAR; a new PIXVAL if it is GETPIX; and its response. -/
theorem exec_drawing {i : Instr} {s t : State} (hi : isDrawing i) (h : exec i s = .next t) :
    s.admitsAll ∧ ∃ fb st pv, t = respond { s with fb := fb, status := st, pixval := pv } ∧
      (s.fb.wf → fb.wf ∧ (s.fb.below s.cfg.L → fb.below s.cfg.L)) ∧
      ((∀ x y p c k, i ≠ .rchar x y p c k) → st = s.status) ∧ ((∀ x y, i ≠ .getpix x y) → pv = s.pixval) := by
  have same : ∀ {fb : Memory}, t = respond { s with fb := fb } →
      (s.fb.wf → fb.wf ∧ (s.fb.below s.cfg.L → fb.below s.cfg.L)) →
      ∃ fb st pv, t = respond { s with fb := fb, status := st, pixval := pv } ∧
        (s.fb.wf → fb.wf ∧ (s.fb.below s.cfg.L → fb.below s.cfg.L)) ∧
        ((∀ x y p c k, i ≠ .rchar x y p c k) → st = s.status) ∧ ((∀ x y, i ≠ .getpix x y) → pv = s.pixval) :=
    fun {fb} ht hw => ⟨fb, s.status, s.pixval, ht, hw, fun _ => rfl, fun _ => rfl⟩
  have fill : ∀ v, s.fb.wf → (fillBytes s.cfg s.fb v).wf ∧
      (s.fb.below s.cfg.L → (fillBytes s.cfg s.fb v).below s.cfg.L) := fun v hw =>
    ⟨fillBytes_wf s.cfg hw v, fun hb => fillBytes_below s.cfg hb v⟩
  have paint : ∀ {p A f}, Paints s.cfg p A f → s.fb.wf → (f s.fb).wf ∧
      (s.fb.below s.cfg.L → (f s.fb).below s.cfg.L) := fun hp hw => ⟨(hp s.fb hw).1, (hp s.fb hw).2.1⟩
  cases i with
  | clear =>
    obtain ⟨ha, hk⟩ := whenReady_next h
    exact ⟨ha, same (complete_next hk) (fill 0)⟩
  | fill pattern =>
    obtain ⟨ha, hk⟩ := whenReady_next h
    exact ⟨ha, same (complete_next hk) (fill pattern)⟩
  | setpix x y p =>
    obtain ⟨ha, hk⟩ := whenReady_next h
    exact ⟨ha, same (complete_next hk) (paint (f := fun m => setPixel s.cfg m x.toNat y.toNat p)
      (setPixel_paints s.cfg x.toNat y.toNat p))⟩
  | getpix x y =>
    obtain ⟨ha, hk⟩ := whenReady_next h
    exact ⟨ha, s.fb, s.status, _, complete_next hk, fun hw => ⟨hw, id⟩, fun _ => rfl, fun hn => absurd rfl (hn x y)⟩
  | copyimg size src =>
    obtain ⟨ha, hk⟩ := whenReady_next h
    split at hk
    · cases hk
    · next hs =>
      split at hk
      · refine ⟨ha, same (complete_next hk) fun hw => ⟨copyBytes_wf _ _ _ (fill 0 hw).1, fun hb =>
          copyBytes_below _ _ _ ?_ ((fill 0 hw).2 hb)⟩⟩
        simp only [List.length_take, copyLength]
        omega
      · cases hk
  | rchar x y p c k =>
    obtain ⟨ha, hk⟩ := whenReady_next h
    exact ⟨ha, _, _, s.pixval, complete_next hk, paint (renderChar_paints s.cfg x.toNat y.toNat p c.toNat k.toNat),
      fun hn => absurd rfl (hn x y p c k), fun _ => rfl⟩
  | rtext x y p len k text =>
    obtain ⟨ha, hk⟩ := whenReady_next h
    split at hk
    · exact ⟨ha, same (complete_next hk)
        (paint (renderText_paints s.cfg x.toNat y.toNat p (text.take len.toNat) k.toNat))⟩
    · cases hk
  | frect x y w hh =>
    obtain ⟨ha, hk⟩ := whenReady_next h
    exact ⟨ha, same (complete_next hk) (paint (fillRect_paints s.cfg x.toNat y.toNat w.toNat hh.toNat))⟩
  | dframe =>
    obtain ⟨ha, hk⟩ := whenReady_next h
    exact ⟨ha, same (complete_next hk) (paint (drawRects_paints s.cfg s.cfg.frameRects))⟩
  | init => exact absurd rfl hi.1
  | flush => exact absurd rfl hi.2.1
  | setinv v => exact absurd rfl (hi.2.2 v)

/-- A FLUSH that runs is its writes (R129). -/
theorem exec_flush {s t : State} (h : exec .flush s = .next t) :
    s.admitsAll ∧ t = (sendAll (flushWrites s.cfg s.fb) s).finish := by
  obtain ⟨ha, hk⟩ := whenReady_next h
  cases hk
  exact ⟨ha, rfl⟩

/-- A SETINV that runs is one write (R132). -/
theorem exec_setinv {v : Bool} {s t : State} (h : exec (.setinv v) s = .next t) :
    s.admitsAll ∧ t = (sendAll [cmdWrite (if v then s.cfg.cmdInvert else s.cfg.cmdNormal)] s).finish := by
  obtain ⟨ha, hk⟩ := whenReady_next h
  cases hk
  exact ⟨ha, by rw [sendAll_single]⟩

/-! ### INIT -/

/-- INIT's state in its first delay (R126). -/
def inFirstDelay (s : State) : State :=
  delayEvent s.cfg.tAssert (drive .rst .low (drive .rst .high { s with ctrl := .resetting }))

/-- INIT's state in its second delay (R126). -/
def inSecondDelay (s : State) : State := delayEvent s.cfg.tRelease (drive .rst .high (inFirstDelay s))

/-- INIT's state when its reset pulse is done (R126). -/
def afterPulse (s : State) : State := { inSecondDelay s with ctrl := .configuring }

/-- INIT's state when INIT_SEQ is sent and the internal clear done (R126). -/
def afterSequence (s : State) : State :=
  { afterWrites (s.cfg.initSeq.map cmdWrite) (afterPulse s) with fb := fillBytes s.cfg s.fb 0 }

theorem inFirstDelay_eq (s : State) : inFirstDelay s = { s with
    ctrl := .resetting
    trace := s.trace ++ [.drive .rst .high, .drive .rst .low, .delay s.cfg.tAssert]
    rst := .low
    delays := s.delays.tail } := by
  simp [inFirstDelay, delayEvent, drive, emit]

theorem inSecondDelay_eq (s : State) : inSecondDelay s = { s with
    ctrl := .resetting
    trace := s.trace ++ resetPulse s.cfg
    rst := .high
    delays := s.delays.drop 2 } := by
  rw [inSecondDelay, inFirstDelay_eq]
  simp [delayEvent, drive, emit, resetPulse, List.drop_drop, ← List.drop_one]

theorem afterPulse_eq (s : State) : afterPulse s = { s with
    ctrl := .configuring
    trace := s.trace ++ resetPulse s.cfg
    rst := .high
    delays := s.delays.drop 2 } := by
  rw [afterPulse, inSecondDelay_eq]

@[simp] theorem afterPulse_cfg (s : State) : (afterPulse s).cfg = s.cfg := by rw [afterPulse_eq]
@[simp] theorem afterPulse_fb (s : State) : (afterPulse s).fb = s.fb := by rw [afterPulse_eq]

theorem afterSequence_eq (s : State) : afterSequence s = { s with
    ctrl := .configuring
    trace := s.trace ++ resetPulse s.cfg ++ s.cfg.initSeq.flatMap commandEvents
    rst := .high
    delays := s.delays.drop 2
    fb := fillBytes s.cfg s.fb 0
    answers := s.answers.drop s.cfg.initSeq.length
    cs := if s.cfg.initSeq = [] then s.cs else .high
    dc := if s.cfg.initSeq = [] then s.dc else .low } := by
  rw [afterSequence, afterPulse_eq]
  have hdc : (Option.map (FramedWrite.level ∘ cmdWrite) s.cfg.initSeq.getLast?).getD s.dc =
      if s.cfg.initSeq = [] then s.dc else .low := by
    cases hl : s.cfg.initSeq.getLast? with
    | none => simp [List.getLast?_eq_none_iff.1 hl]
    | some b =>
      have hne : s.cfg.initSeq ≠ [] := by
        intro h
        simp [h] at hl
      simp [hne, cmdWrite]
  simp [afterWrites, events_commands, hdc]

theorem delayAt_drive (l : Line) (v : Level) (s : State) (k : Nat) : delayAt (drive l v s) k = delayAt s k := by
  simp [delayAt, List.countP_append, Event.isDelay]

theorem delayAt_delayEvent (n : Nat) (s : State) (k : Nat) : delayAt (delayEvent n s) k = delayAt s (k + 1) := by
  simp [delayAt, List.countP_append, Event.isDelay, List.getElem?_tail, Nat.add_assoc, Nat.add_comm 1]

theorem answerAt_afterPulse (s : State) (k : Nat) : answerAt (afterPulse s) k = answerAt s k := by
  rw [afterPulse_eq]
  simp [answerAt, List.countP_append, resetPulse, Event.isXfer]

theorem answerAt_afterSequence (s : State) (k : Nat) :
    answerAt (afterSequence s) k = answerAt s (s.cfg.initSeq.length + k) := by
  have h := answerAt_afterWrites (s.cfg.initSeq.map cmdWrite) (afterPulse s) k
  rw [answerAt_afterPulse, List.length_map] at h
  exact h

/-- INIT's first delay never returns (R157). -/
theorem initBody_first_delay {s : State} (h : delayAt s 0 = .never) : initBody s = .hung (inFirstDelay s) := by
  have h' : delayAt (drive .rst .low (drive .rst .high { s with ctrl := .resetting })) 0 = .never := by
    rw [delayAt_drive, delayAt_drive]
    exact h
  simp [initBody, delay, h', Progress.andThen, inFirstDelay]

/-- INIT's second delay never returns (R157). -/
theorem initBody_second_delay {s : State} (h0 : delayAt s 0 = .returns) (h1 : delayAt s 1 = .never) :
    initBody s = .hung (inSecondDelay s) := by
  have h' : delayAt (drive .rst .low (drive .rst .high { s with ctrl := .resetting })) 0 = .returns := by
    rw [delayAt_drive, delayAt_drive]
    exact h0
  have h'' : delayAt (drive .rst .high (inFirstDelay s)) 0 = .never := by
    rw [delayAt_drive, inFirstDelay, delayAt_delayEvent, delayAt_drive, delayAt_drive]
    exact h1
  simp only [inFirstDelay] at h''
  simp [initBody, delay, h', h'', Progress.andThen, inFirstDelay, inSecondDelay]

/-- INIT once both delays have returned (R126). -/
theorem initBody_after_pulse {s : State} (h : delaysReturn s) :
    initBody s = (sendAll (s.cfg.initSeq.map cmdWrite) (afterPulse s)).andThen fun s =>
      (flushBody { s with fb := fillBytes s.cfg s.fb 0 }).andThen fun s => .going { s with ctrl := .ready } := by
  have h' : delayAt (drive .rst .low (drive .rst .high { s with ctrl := .resetting })) 0 = .returns := by
    rw [delayAt_drive, delayAt_drive]
    exact h.1
  have h'' : delayAt (drive .rst .high (inFirstDelay s)) 0 = .returns := by
    rw [delayAt_drive, inFirstDelay, delayAt_delayEvent, delayAt_drive, delayAt_drive]
    exact h.2
  simp only [inFirstDelay] at h''
  simp [initBody, delay, h', h'', Progress.andThen, inFirstDelay, inSecondDelay, afterPulse]

/-- INIT once INIT_SEQ is sent (R126). -/
theorem initBody_after_sequence {s : State} (h : delaysReturn s)
    (hs : sendAll (s.cfg.initSeq.map cmdWrite) (afterPulse s) =
      .going (afterWrites (s.cfg.initSeq.map cmdWrite) (afterPulse s))) :
    initBody s = (sendAll (flushWrites s.cfg (fillBytes s.cfg s.fb 0)) (afterSequence s)).andThen fun s =>
      .going { s with ctrl := .ready } := by
  rw [initBody_after_pulse h, hs]
  simp only [Progress.andThen, flushBody, afterSequence, afterWrites_cfg, afterWrites_fb, afterPulse_cfg, afterPulse_fb]

theorem delayAnswer_cases (a : DelayAnswer) : a = .returns ∨ a = .never := by cases a <;> simp

/-- Everything INIT's body can do (R126, R155, R157). -/
theorem initBody_cases (s : State) :
    (∃ u, initBody s = .hung u ∧ (u = inFirstDelay s ∨ u = inSecondDelay s)) ∨
    (∃ ws pre w post u, (ws = s.cfg.initSeq.map cmdWrite ∧ u = afterPulse s ∨
        ws = flushWrites s.cfg (fillBytes s.cfg s.fb 0) ∧ u = afterSequence s) ∧ ws = pre ++ w :: post ∧
      (initBody s = .failed (transportFail (openWrite w (afterWrites pre u))) ∨
        initBody s = .hung (openWrite w (afterWrites pre u)))) ∨
    initBody s = .going { afterWrites (flushWrites s.cfg (fillBytes s.cfg s.fb 0)) (afterSequence s) with
      ctrl := .ready } := by
  rcases delayAnswer_cases (delayAt s 0) with h0 | h0
  · rcases delayAnswer_cases (delayAt s 1) with h1 | h1
    · have hd : delaysReturn s := ⟨h0, h1⟩
      rcases sendAll_cases (s.cfg.initSeq.map cmdWrite) (afterPulse s) with hs | ⟨pre, w, post, hw, hs⟩ |
        ⟨pre, w, post, hw, hs⟩
      · rw [initBody_after_sequence hd hs]
        rcases sendAll_cases (flushWrites s.cfg (fillBytes s.cfg s.fb 0)) (afterSequence s) with hf |
          ⟨pre, w, post, hw, hf⟩ | ⟨pre, w, post, hw, hf⟩
        · exact .inr (.inr (by rw [hf]; rfl))
        · exact .inr (.inl ⟨_, pre, w, post, _, .inr ⟨rfl, rfl⟩, hw, .inl (by rw [hf]; rfl)⟩)
        · exact .inr (.inl ⟨_, pre, w, post, _, .inr ⟨rfl, rfl⟩, hw, .inr (by rw [hf]; rfl)⟩)
      · exact .inr (.inl ⟨_, pre, w, post, _, .inl ⟨rfl, rfl⟩, hw, .inl (by rw [initBody_after_pulse hd, hs]; rfl)⟩)
      · exact .inr (.inl ⟨_, pre, w, post, _, .inl ⟨rfl, rfl⟩, hw, .inr (by rw [initBody_after_pulse hd, hs]; rfl)⟩)
    · exact .inl ⟨_, initBody_second_delay h0 h1, .inr rfl⟩
  · exact .inl ⟨_, initBody_first_delay h0, .inl rfl⟩

/-- An INIT that runs is its body (R126). -/
theorem exec_init {s t : State} (h : exec .init s = .next t) : s.busy = false ∧ t = (initBody s).finish := by
  obtain ⟨ha, hk⟩ := whenIdle_next h
  cases hk
  exact ⟨ha, rfl⟩

theorem exec_init_run {s : State} (h : s.busy = false) : exec .init s = .next (initBody s).finish :=
  whenIdle_run h _

theorem exec_flush_run {s : State} (h : s.admitsAll) :
    exec .flush s = .next (sendAll (flushWrites s.cfg s.fb) s).finish := whenReady_run h _

theorem exec_setinv_run {s : State} (h : s.admitsAll) (v : Bool) : exec (.setinv v) s =
    .next (sendAll [cmdWrite (if v then s.cfg.cmdInvert else s.cfg.cmdNormal)] s).finish := by
  rw [← sendAll_single]
  exact whenReady_run h _

end Sys2Proof.Machine
end

