-- ==== Sys2Proof/Laws/PerInstr.lean ====
section
/-! SUPPORT. Per command: its encoding selects its own row of the opcode map (R63). -/

namespace Sys2Proof.Laws.EncodingSelectsRow

/-- The command word of a command selects the command's row, whatever its operands (R63, R64). -/
def Statement (i : Sys2Proof.Instr) : Prop := Sys2Proof.selectRow (Sys2Proof.encodeWord i) = some (Sys2Proof.mnemonicOf i)

open Sys2Proof

theorem flagByte_and (f : Bool) : flagByte f &&& 0xFE#8 = 0 := by cases f <;> decide

/-- A packed word selects the row it agrees with field by field. -/
theorem select_pack {op : Byte} {a b c d : Word} {e : Byte} (r : OpcodeRow) (hr : r ∈ opcodeTable)
    (h : op &&& fieldOP r.mask = fieldOP r.pattern ∧ a &&& fieldA r.mask = fieldA r.pattern ∧
      b &&& fieldB r.mask = fieldB r.pattern ∧ c &&& fieldC r.mask = fieldC r.pattern ∧
      d &&& fieldD r.mask = fieldD r.pattern ∧ e &&& fieldE r.mask = fieldE r.pattern) :
    selectRow (packFields op a b c d e) = some r.name :=
  selectRow_of_selects hr ((rowSelects_iff _ r).2 (by simpa using h))

theorem clear : Statement .clear := by
  unfold Statement; decide

theorem fill (pattern : Byte) : Statement (.fill pattern) :=
  select_pack ⟨.fill, 0x00000000000000000002#80, 0x00FFFFFFFFFFFFFFFFFF#80⟩ (by decide)
    ⟨by decide, by decide, by decide, by decide, by decide, BitVec.and_zero⟩

theorem setpix (x y : Word) (state : PixelState) : Statement (.setpix x y state) :=
  select_pack ⟨.setpix, 0x00000000000000000003#80, 0xFEFFFFFFFF00000000FF#80⟩ (by decide)
    ⟨by decide, BitVec.and_zero, BitVec.and_zero, by decide, by decide, flagByte_and _⟩

theorem getpix (x y : Word) : Statement (.getpix x y) :=
  select_pack ⟨.getpix, 0x00000000000000000004#80, 0xFFFFFFFFFF00000000FF#80⟩ (by decide)
    ⟨by decide, BitVec.and_zero, BitVec.and_zero, by decide, by decide, by decide⟩

theorem copyimg (size : Word) (src : List Byte) : Statement (.copyimg size src) :=
  select_pack ⟨.copyimg, 0x00000000000000000005#80, 0xFFFFFF0000FFFFFFFFFF#80⟩ (by decide)
    ⟨by decide, by decide, by decide, BitVec.and_zero, by decide, by decide⟩

theorem rchar (x y : Word) (state : PixelState) (charCode scale : Word) :
    Statement (.rchar x y state charCode scale) :=
  select_pack ⟨.rchar, 0x00000000000000000010#80, 0xFE0000000000000000FF#80⟩ (by decide)
    ⟨by decide, BitVec.and_zero, BitVec.and_zero, BitVec.and_zero, BitVec.and_zero, flagByte_and _⟩

theorem rtext (x y : Word) (state : PixelState) (len scale : Word) (text : List Byte) :
    Statement (.rtext x y state len scale text) :=
  select_pack ⟨.rtext, 0x00000000000000000011#80, 0xFE0000000000000000FF#80⟩ (by decide)
    ⟨by decide, BitVec.and_zero, BitVec.and_zero, BitVec.and_zero, BitVec.and_zero, flagByte_and _⟩

theorem frect (x y width height : Word) : Statement (.frect x y width height) :=
  select_pack ⟨.frect, 0x00000000000000000012#80, 0xFF0000000000000000FF#80⟩ (by decide)
    ⟨by decide, BitVec.and_zero, BitVec.and_zero, BitVec.and_zero, BitVec.and_zero, by decide⟩

theorem dframe : Statement .dframe := by
  unfold Statement; decide

theorem init : Statement .init := by
  unfold Statement; decide

theorem flush : Statement .flush := by
  unfold Statement; decide

theorem setinv (inverted : Bool) : Statement (.setinv inverted) :=
  select_pack ⟨.setinv, 0x00000000000000000022#80, 0xFEFFFFFFFFFFFFFFFFFF#80⟩ (by decide)
    ⟨by decide, by decide, by decide, by decide, by decide, flagByte_and _⟩

end Sys2Proof.Laws.EncodingSelectsRow
end

