-- ==== Sys2Proof/Laws/Trace.lean ====
section
/-! SUPPORT. Where the transfers of FLUSH and INIT lie in their events (R130, R134), and what either command does when one
of its transfers is not answered ok (R155, R157). -/

namespace Sys2Proof.Machine

/-- Entry `4*p + j` of a list of blocks of four is entry `j` of block `p`. -/
theorem getElem?_blocks {α : Type} {f : Nat → List α} (hf : ∀ i, (f i).length = 4) {n p j : Nat} (hp : p < n)
    (hj : j < 4) : ((List.range n).flatMap f)[4 * p + j]? = (f p)[j]? := by
  induction n with
  | zero => omega
  | succ n ih =>
    have hl : ((List.range n).flatMap f).length = 4 * n := length_flatMap_range f 4 hf n
    rw [List.range_succ, List.flatMap_append]
    by_cases h : p < n
    · rw [List.getElem?_append_left (by omega), ih h]
    · obtain rfl : p = n := by omega
      rw [List.getElem?_append_right (by omega), hl]
      simp

/-- DC is high in the last of every four transfers of a flush (R128). -/
theorem flushWrites_level (c : Config) (m : Memory) {k : Nat} (hk : k < 4 * c.NP) :
    ((flushWrites c m)[k]?).map FramedWrite.level = some (if k % 4 = 3 then .high else .low) := by
  have hpage : ∀ p j, j < 4 →
      ((pageWrites c m p)[j]?).map FramedWrite.level = some (if j = 3 then .high else .low) := fun p j hj =>
    match j, hj with
    | 0, _ => rfl
    | 1, _ => rfl
    | 2, _ => rfl
    | 3, _ => rfl
  have hk4 : k = 4 * (k / 4) + k % 4 := by omega
  conv => lhs; rw [hk4]
  rw [flushWrites, getElem?_blocks (length_pageWrites c m) (by omega) (by omega), hpage _ _ (by omega)]

/-- The events of the first `k` writes. -/
theorem take_writeEvents (ws : List FramedWrite) (k : Nat) :
    (ws.flatMap writeEvents).take (4 * k) = (ws.take k).flatMap writeEvents := by
  induction ws generalizing k with
  | nil => simp
  | cons w ws ih =>
    cases k with
    | zero => simp
    | succ k =>
      have h4 : 4 * (k + 1) = (writeEvents w).length + 4 * k := by
        simp [writeEvents]
        omega
      rw [List.flatMap_cons, h4, List.take_length_add_append, ih]
      simp

theorem transfersIn_append (es fs : List Event) : transfersIn (es ++ fs) = transfersIn es ++ transfersIn fs := by
  simp [transfersIn, List.filterMap_append]

/-- The transfers of a list of writes are their blocks. -/
theorem transfersIn_writes (ws : List FramedWrite) : transfersIn (ws.flatMap writeEvents) = ws.map FramedWrite.bytes := by
  induction ws with
  | nil => rfl
  | cons w ws ih =>
    rw [List.flatMap_cons, transfersIn_append, ih]
    rfl

/-- Transfer `4*p + j` of a flush is write `j` of page `p` (R128). -/
theorem flush_transfer (c : Config) (m : Memory) {p j : Nat} (hp : p < c.NP) (hj : j < 4) :
    (transfersIn (flushEvents c m))[4 * p + j]? = ((pageWrites c m p).map FramedWrite.bytes)[j]? := by
  rw [← events_flushWrites, transfersIn_writes, List.getElem?_map, flushWrites,
    getElem?_blocks (length_pageWrites c m) hp hj, List.getElem?_map]

theorem split_at {α : Type} {l : List α} {k : Nat} (h : k < l.length) :
    ∃ pre w post, l = pre ++ w :: post ∧ pre.length = k ∧ l[k]? = some w :=
  ⟨l.take k, l[k], l.drop (k + 1), by simp, by simp; omega, by simp⟩

/-- The state in which transfer number `pre.length` of the writes `ws` stops them, failed or never answered. -/
theorem stopped_writes {w : FramedWrite} {pre ws post : List FramedWrite} {s : State} (h : ws = pre ++ w :: post) :
    transportFail (openWrite w (afterWrites pre s)) = { s with
      trace := s.trace ++ (ws.flatMap writeEvents).take (4 * pre.length + 4)
      xfail := true
      cs := .high
      dc := w.level
      answers := s.answers.drop (pre.length + 1) } ∧
    openWrite w (afterWrites pre s) = { s with
      trace := s.trace ++ (ws.flatMap writeEvents).take (4 * pre.length + 3)
      cs := .low
      dc := w.level
      answers := s.answers.drop (pre.length + 1) } := by
  have he : ws.flatMap writeEvents = pre.flatMap writeEvents ++ (writeEvents w ++ post.flatMap writeEvents) := by
    simp [h]
  rw [he, ← length_writeEvents pre, List.take_length_add_append, List.take_length_add_append]
  constructor
  · simp [transportFail, openWrite, drive, emit, xfer, writeEvents, afterWrites]
  · simp [openWrite, drive, emit, xfer, writeEvents, afterWrites]

/-- The blocks of a flush of a cleared framebuffer are zeros (R134). -/
theorem flushEvents_zero (c : Config) {m : Memory} (hw : m.wf) : flushEvents c (fillBytes c m 0) =
    (List.range c.NP).flatMap fun p => pageEvents c p (List.replicate c.W 0) := by
  unfold flushEvents
  rw [List.flatMap_def, List.flatMap_def]
  congr 1
  refine List.map_congr_left fun p hp => ?_
  rw [List.mem_range] at hp
  congr 1
  refine List.ext_getElem (by simp) fun i h1 _ => ?_
  simp only [List.length_map, List.length_range] at h1
  rw [List.getElem_map, List.getElem_replicate, memRead_fillBytes c hw, if_pos]
  rw [List.getElem_range, Config.L]
  calc p * c.W + i < p * c.W + c.W := by omega
    _ = (p + 1) * c.W := by rw [Nat.add_mul, Nat.one_mul]
    _ ≤ c.NP * c.W := Nat.mul_le_mul_right _ hp
    _ = _ := Nat.mul_comm _ _

/-- The events of INIT are the reset pulse and the events of its writes (R126). -/
theorem initEvents_eq (c : Config) {m : Memory} (hw : m.wf) : initEvents c = resetPulse c ++
    (c.initSeq.map cmdWrite ++ flushWrites c (fillBytes c m 0)).flatMap writeEvents := by
  rw [List.flatMap_append, events_commands, events_flushWrites, flushEvents_zero c hw, initEvents, List.append_assoc]

/-- INIT_SEQ is sent where its transfers are answered ok. -/
theorem sendAll_initSeq {s : State} (h : transfersOk s s.cfg.initSeq.length) :
    sendAll (s.cfg.initSeq.map cmdWrite) (afterPulse s) =
      .going (afterWrites (s.cfg.initSeq.map cmdWrite) (afterPulse s)) :=
  sendAll_ok fun k hk => by
    rw [answerAt_afterPulse]
    rw [List.length_map] at hk
    exact h k hk

theorem andThen_assoc (r : Progress) (f g : State → Progress) :
    (r.andThen f).andThen g = r.andThen fun s => (f s).andThen g := by cases r <;> rfl

/-- The events of INIT up to the transfer that stops it, where that transfer stands at this place among INIT's writes. -/
theorem take_initEvents {c : Config} {m : Memory} (hw : m.wf) {pre post : List FramedWrite} {w : FramedWrite}
    (h : c.initSeq.map cmdWrite ++ flushWrites c (fillBytes c m 0) = pre ++ w :: post) :
    (initEvents c).take (5 + 4 * pre.length) = resetPulse c ++ pre.flatMap writeEvents ∧
    (initEvents c).take (5 + 4 * pre.length + 4) =
      (initEvents c).take (5 + 4 * pre.length) ++ writeEvents w := by
  have h5 : 5 = (resetPulse c).length := rfl
  have h1 : (initEvents c).take (5 + 4 * pre.length) = resetPulse c ++ pre.flatMap writeEvents := by
    rw [initEvents_eq c hw, h5, List.take_length_add_append, take_writeEvents, h, List.take_left]
  have h2 : (pre ++ w :: post).take (pre.length + 1) = pre ++ [w] := by
    rw [List.take_length_add_append]
    rfl
  refine ⟨h1, ?_⟩
  rw [h1, show 5 + 4 * pre.length + 4 = 5 + 4 * (pre.length + 1) by omega, initEvents_eq c hw, h5,
    List.take_length_add_append, take_writeEvents, h, h2]
  simp

/-- INIT up to its transfer number `k`, the first not answered ok: the write `w` it belongs to and the state `u` in which
that write begins (R126). -/
theorem initBody_stops {s : State} {k : Nat} (hd : delaysReturn s) (hk : k < s.cfg.initSeq.length + 4 * s.cfg.NP)
    (ho : transfersOk s k) (ha : answerAt s k ≠ .ok) (hw : s.fb.wf) :
    ∃ w u, initBody s = (sendWrite w u).andThen (fun _ => .hung s) ∧ answerAt u 0 = answerAt s k ∧
      w.level = (if s.cfg.initSeq.length ≤ k ∧ (k - s.cfg.initSeq.length) % 4 = 3 then .high else .low) ∧
      (initEvents s.cfg).take (5 + 4 * k + 4) = (initEvents s.cfg).take (5 + 4 * k) ++ writeEvents w ∧
      (k < s.cfg.initSeq.length → u.fb = s.fb) ∧ (s.cfg.initSeq.length ≤ k → u.fb = fillBytes s.cfg s.fb 0) ∧
      u = { s with
        ctrl := .configuring
        trace := s.trace ++ (initEvents s.cfg).take (5 + 4 * k)
        rst := .high
        delays := s.delays.drop 2
        answers := s.answers.drop k
        fb := u.fb
        dc := u.dc
        cs := u.cs } := by
  have stop : ∀ {w : FramedWrite} {u : State} {f : State → Progress}, answerAt u 0 ≠ .ok →
      (sendWrite w u).andThen f = (sendWrite w u).andThen fun _ => .hung s := by
    intro w u f h
    cases hu : answerAt u 0 with
    | ok => exact absurd hu h
    | fail => rw [sendWrite_fail hu]; rfl
    | never => rw [sendWrite_never hu]; rfl
  by_cases hs : k < s.cfg.initSeq.length
  · obtain ⟨pre, w, post, hp, hl, hg⟩ := split_at (l := s.cfg.initSeq.map cmdWrite) (k := k) (by simpa using hs)
    obtain ⟨t1, t2⟩ := take_initEvents hw (pre := pre) (w := w)
      (post := post ++ flushWrites s.cfg (fillBytes s.cfg s.fb 0)) (by rw [hp]; simp)
    rw [hl] at t1 t2
    have hu : answerAt (afterWrites pre (afterPulse s)) 0 = answerAt s k := by
      rw [answerAt_afterWrites, answerAt_afterPulse, hl]
      rfl
    refine ⟨w, afterWrites pre (afterPulse s), ?_, hu, ?_, t2, ?_, fun h => absurd hs (by omega), ?_⟩
    · rw [initBody_after_pulse hd, hp, sendAll_stops (fun j hj => by rw [answerAt_afterPulse]; exact ho j (by omega))
        (by rw [answerAt_afterPulse, hl]; exact ha), ← stop (by rw [hu]; exact ha)]
      exact andThen_assoc _ _ _
    · rw [if_neg (by omega)]
      simp only [List.getElem?_map, Option.map_eq_some_iff] at hg
      obtain ⟨b, _, rfl⟩ := hg
      rfl
    · intro _
      simp
    · rw [t1, afterPulse_eq, afterWrites]
      simp [hl]
  · obtain ⟨pre, w, post, hp, hl, hg⟩ := split_at (l := flushWrites s.cfg (fillBytes s.cfg s.fb 0))
      (k := k - s.cfg.initSeq.length) (by rw [length_flushWrites]; omega)
    have hk' : s.cfg.initSeq.length + (k - s.cfg.initSeq.length) = k := by omega
    have hle : s.cfg.initSeq.length ≤ k := by omega
    obtain ⟨t1, t2⟩ := take_initEvents hw (pre := s.cfg.initSeq.map cmdWrite ++ pre) (w := w) (post := post)
      (by rw [hp]; simp)
    rw [List.length_append, List.length_map, hl, hk'] at t1 t2
    have hu : answerAt (afterWrites pre (afterSequence s)) 0 = answerAt s k := by
      rw [answerAt_afterWrites, answerAt_afterSequence, hl, Nat.add_zero, hk']
    refine ⟨w, afterWrites pre (afterSequence s), ?_, hu, ?_, t2, fun h => absurd h hs, ?_, ?_⟩
    · rw [initBody_after_sequence hd (sendAll_initSeq fun j hj => ho j (by omega)), hp,
        sendAll_stops (fun j hj => by rw [answerAt_afterSequence]; exact ho _ (by omega))
        (by rw [answerAt_afterSequence, hl, hk']; exact ha)]
      exact (andThen_assoc _ _ _).trans (stop (by rw [hu]; exact ha))
    · have hlev := flushWrites_level s.cfg (fillBytes s.cfg s.fb 0) (k := k - s.cfg.initSeq.length) (by omega)
      rw [hg] at hlev
      simp only [Option.map_some, Option.some.injEq] at hlev
      rw [hlev]
      simp [hle]
    · intro _
      rfl
    · rw [t1, afterSequence_eq, afterWrites]
      simp [hl, hk', events_commands]

end Sys2Proof.Machine
end

