-- ==== Sys2Proof/Tests/Slice0.lean ====
section
/-! SUPPORT. Tests of the model, each from a vector of 95_test_vectors.md or worked out by hand from the rule named, and
for every statement with hypotheses a state and operands that meet them. -/

namespace Sys2Proof.Tests

open Sys2Proof Sys2Proof.Machine

/-- Configuration `TS` of 95_test_vectors.md section 1, with this glyph ROM. -/
def small (glyph : List (BitVec 5)) : Config where
  W := 8
  H := 16
  glyph := glyph
  initSeq := [0xAE, 0xAF]
  colCmd0 := 0x00
  colCmd1 := 0x10
  cmdNormal := 0xA6
  cmdInvert := 0xA7
  tAssert := 10
  tRelease := 100
  frameRects := [⟨0, 0, 4, 1⟩, ⟨0, 15, 4, 1⟩, ⟨0, 0, 1, 16⟩, ⟨3, 0, 1, 16⟩]
  W_pos := by decide
  H_pos := by decide
  W_mod := by decide
  H_mod := by decide
  size_le := by decide
  pages_le := by decide
  modes_ne := by decide

/-- `TS` with code 0 all on, as in 95_test_vectors.md section 1. -/
def ts : Config := small (List.replicate 7 0x1F)

/-- The state after a successful INIT (R174) with this framebuffer, the coming transfers and delays answered so. -/
def readyWith (fb : Memory) (answers : List Answer) : State :=
  { State.powerOn ts fb with ctrl := .ready, dc := .high, answers := answers, delays := [.returns, .returns] }

/-- That state with a cleared framebuffer and ten transfers answered ok. -/
def ready : State := readyWith [] (List.replicate 10 .ok)

/-- An idle CORE in reset, with these answers. -/
def fresh (answers : List Answer) (delays : List DelayAnswer) : State :=
  { State.powerOn ts [(3, 0xC0)] with answers := answers, delays := delays }

/-! ### Well-formedness and decoding -/

/-- R68: COPYIMG 4 has three payload bytes. -/
theorem test_wellFormed_refuses_copyimg : Instr.wellFormed (.copyimg 4 [1, 2]) = false := by decide

/-- R68: RTEXT has `len` payload bytes. -/
theorem test_wellFormed_refuses_rtext : Instr.wellFormed (.rtext 0 0 .set 2 1 [0x48]) = false := by decide

/-- Witness of DecodeOfEncodeIsTheCommand, at the boundaries of COPYIMG's size. -/
theorem test_witness_wellFormed : Instr.wellFormed (.copyimg 0 []) = true ∧ Instr.wellFormed (.copyimg 1 []) = true ∧
    Instr.wellFormed (.copyimg 4 [1, 2, 3]) = true ∧ Instr.wellFormed (.rtext 0 0 .set 0 1 []) = true ∧
    Instr.wellFormed .init = true := by decide

/-- V1, row by row: the serial form written out byte by byte. -/
theorem test_decode_clear : decode [0x01, 0, 0, 0, 0, 0, 0, 0, 0, 0] = .ok .clear := by decide
theorem test_decode_fill : decode [0x02, 0, 0, 0, 0, 0, 0, 0, 0, 0xA5] = .ok (.fill 0xA5) := by decide
theorem test_decode_setpix : decode [0x03, 0x05, 0, 0x0A, 0, 0, 0, 0, 0, 0x01] = .ok (.setpix 5 10 .set) := by decide
theorem test_decode_getpix : decode [0x04, 0x7F, 0, 0x3F, 0, 0, 0, 0, 0, 0] = .ok (.getpix 127 63) := by decide
theorem test_decode_copyimg : decode [0x05, 0, 0, 0, 0, 0x04, 0, 0, 0, 0, 0x11, 0x22, 0x33, 0x44] =
    .ok (.copyimg 4 [0x11, 0x22, 0x33]) := by decide
theorem test_decode_rchar : decode [0x10, 0x03, 0, 0x05, 0, 0x41, 0, 0x01, 0, 0x01] =
    .ok (.rchar 3 5 .set 0x41 1) := by decide
theorem test_decode_rtext : decode [0x11, 0x04, 0, 0x04, 0, 0x02, 0, 0x02, 0, 0x01, 0x48, 0x49] =
    .ok (.rtext 4 4 .set 2 2 [0x48, 0x49]) := by decide
theorem test_decode_frect : decode [0x12, 0x0A, 0, 0x06, 0, 0x02, 0, 0x04, 0, 0] = .ok (.frect 10 6 2 4) := by decide
theorem test_decode_dframe : decode [0x13, 0, 0, 0, 0, 0, 0, 0, 0, 0] = .ok .dframe := by decide
theorem test_decode_init : decode [0x20, 0, 0, 0, 0, 0, 0, 0, 0, 0] = .ok .init := by decide
theorem test_decode_flush : decode [0x21, 0, 0, 0, 0, 0, 0, 0, 0, 0] = .ok .flush := by decide
theorem test_decode_setinv : decode [0x22, 0, 0, 0, 0, 0, 0, 0, 0, 0x01] = .ok (.setinv true) ∧
    decode [0x22, 0, 0, 0, 0, 0, 0, 0, 0, 0] = .ok (.setinv false) := by decide

/-- R61: high bytes of the 16-bit fields, each its own. -/
theorem test_decode_high_bytes : decode [0x12, 0x01, 0x02, 0x03, 0x04, 0x05, 0x06, 0x07, 0x08, 0] =
    .ok (.frect 0x0201 0x0403 0x0605 0x0807) := by decide

/-- R61, R75: the words of V1 from the commands. -/
theorem test_encode_words : encodeWord (.rtext 4 4 .set 2 2 [0x48, 0x49]) = 0x01000200020004000411#80 ∧
    encodeWord (.fill 0xA5) = 0xA5000000000000000002#80 ∧ encodeWord (.setinv true) = 0x01000000000000000022#80 ∧
    encode (.copyimg 4 [0x11, 0x22, 0x33]) = [0x05, 0, 0, 0, 0, 0x04, 0, 0, 0, 0, 0x11, 0x22, 0x33] := by decide

/-- V2: unassigned opcodes and reserved bits. -/
theorem test_illegal_words : [0x00000000000000000000#80, 0x000000000000000000FF#80, 0x00000000000000000006#80,
    0x00000000000000000014#80, 0x00000000000000000023#80, 0x00000000000000000101#80, 0x00000000000000000102#80,
    0x02000000000000000003#80, 0x03000000000000000003#80, 0x00000000010000000003#80, 0x01000000000000000004#80,
    0x00000000040000000105#80, 0x00010000040000000005#80, 0x02000100410000000010#80, 0x01000400020006000A12#80,
    0x01000000000000000013#80, 0x02000000000000000022#80, 0x00000000000001000022#80].all
      (fun cw => selectRow cw == none) = true := by decide

/-- V2: legal although unusual. -/
theorem test_unusual_words : decodeCommand 0xFF000000000000000002#80 [] = .ok (.fill 0xFF) ∧
    decodeCommand 0x01FFFF00410000000010#80 [] = .ok (.rchar 0 0 .set 0x41 65535) ∧
    decodeCommand 0x00FFFFFFFFFFFFFFFF12#80 [] = .ok (.frect 65535 65535 65535 65535) := by decide

/-- V3: the payload rules; R75: a serial form shorter than a word. -/
theorem test_payload_rules : decodeCommand 0x01000100020000000011#80 [0x48] = .error .shortPayload ∧
    decodeCommand 0x00000000000000000001#80 [0x00] = .error .strayPayload ∧
    decodeCommand 0x00000000040000000005#80 [0x11, 0x22] = .error .shortPayload ∧
    decodeCommand 0x00000000010000000005#80 [] = .ok (.copyimg 1 []) ∧ decode [0x01] = .error .truncatedWord := by decide

/-- The opcode-table words, operands zero, decode to their rows. -/
theorem test_decodeTableWord : (opcodeTable.map fun r => (decodeTableWord 80 r.pattern.toNat).isSome) =
    List.replicate 12 true := by decide

/-! ### Steps -/

/-- The step answers a next state. -/
def goesOn (o : Host.Outcome State Fault Refusal) : Bool :=
  match o with
  | .next _ => true
  | .fault _ => false
  | .refused _ => false

/-- Every opcode-table word runs as the first command after reset. -/
theorem test_table_words_run : (opcodeTable.map fun r => goesOn (step (State.reset.withFetchWord 80 r.pattern.toNat))) =
    List.replicate 12 true := by rfl

/-- R70: the first command after reset must be INIT. -/
theorem test_reset_admits_init_only : exec .clear State.reset = .refused .notReady ∧ goesOn (exec .init State.reset) = true :=
  ⟨rfl, rfl⟩

/-- R82: from a byte in each page. -/
theorem test_clear : ∃ t, exec .clear (readyWith [(0, 0xA5), (15, 0x01)] []) = .next t ∧ t.fb = [] ∧
    t.responses = [0x30] := ⟨_, rfl, by decide, by decide⟩

/-- V15: row 5 of pattern 0xA5 is on, row 6 off, in either page. -/
theorem test_fill : ∃ t, exec (.fill 0xA5) ready = .next t ∧ memRead t.fb 15 = 0xA5 ∧
    getPixel ts t.fb 7 13 = true ∧ getPixel ts t.fb 7 14 = false := ⟨_, rfl, by decide, by decide, by decide⟩

/-- V11, in `TS`: byte `1 + 1*8`, bits 0 and 7 beside bit 1, which is cleared. -/
theorem test_setpix : ∃ t, exec (.setpix 1 9 .clear) (readyWith [(9, 0x83)] []) = .next t ∧ t.fb = [(9, 0x81)] :=
  ⟨_, rfl, by decide⟩

/-- V13: `x = W` writes nothing, although the index would exist. -/
theorem test_setpix_out : ∃ t, exec (.setpix 8 0 .set) ready = .next t ∧ t.fb = [] ∧ t.responses = [0x30] :=
  ⟨_, rfl, by decide, by decide⟩

/-- V14: RESP 0x34 for a set pixel; 0 past the edge. -/
theorem test_getpix : (∃ t, exec (.getpix 1 10) (readyWith [(9, 0x04)] []) = .next t ∧ t.responses = [0x34]) ∧
    (∃ t, exec (.getpix 9 0) (readyWith [(9, 0x01)] []) = .next t ∧ t.responses = [0x30]) :=
  ⟨⟨_, rfl, by decide⟩, ⟨_, rfl, by decide⟩⟩

/-- V20 row 3, and row 5 (size 0) on a framebuffer that is not zero. -/
theorem test_copyimg : (∃ t, exec (.copyimg 4 [0x11, 0x22, 0x33, 0x44]) (readyWith [(3, 0xFF), (9, 0xFF)] []) = .next t ∧
      t.fb = [(0, 0x11), (1, 0x22), (2, 0x33)]) ∧
    (∃ t, exec (.copyimg 0 []) (readyWith [(3, 0xFF), (9, 0xFF)] []) = .next t ∧ t.fb = []) :=
  ⟨⟨_, rfl, by decide⟩, ⟨_, rfl, by decide⟩⟩

/-- V20 row 6: `size > L + 1`, with `L = 16`. -/
theorem test_copyimg_too_large : exec (.copyimg 18 (List.replicate 17 0)) ready = .refused .sizeTooLarge := rfl

/-- R45: bit 4 of a row is the leftmost column, row 0 the top one; R101: the block of a bit at scale 2. -/
theorem test_rchar_orientation : ∃ t,
    exec (.rchar 0 0 .set 0 2) { ready with cfg := small [0x10, 0x01] } = .next t ∧
      t.fb = [(0, 0x03), (1, 0x03)] := ⟨_, rfl, by decide⟩

/-- V31: bounds before character before scale; RESP 0x31, 0x32, 0x33. -/
theorem test_rchar_order : (∃ t, exec (.rchar 8 0 .set 128 0) ready = .next t ∧ t.responses = [0x31]) ∧
    (∃ t, exec (.rchar 7 15 .set 128 0) ready = .next t ∧ t.responses = [0x32]) ∧
    (∃ t, exec (.rchar 7 15 .set 127 4) ready = .next t ∧ t.responses = [0x33]) :=
  ⟨⟨_, rfl, by decide⟩, ⟨_, rfl, by decide⟩, ⟨_, rfl, by decide⟩⟩

/-- R105, by hand: the first glyph in columns 2 to 6, the second from column 7; an invalid code draws nothing and leaves
STATUS. -/
theorem test_rtext : (∃ t, exec (.rtext 0 0 .set 2 1 [0, 0]) ready = .next t ∧
      t.fb = [(2, 0x7F), (3, 0x7F), (4, 0x7F), (5, 0x7F), (6, 0x7F), (7, 0x7F)]) ∧
    (∃ t, exec (.rtext 0 0 .set 1 1 [0x80]) ready = .next t ∧ t.fb = [] ∧ t.status = .ok) :=
  ⟨⟨_, rfl, by decide +kernel⟩, ⟨_, rfl, by decide, by decide⟩⟩

/-- R108, by hand: columns 3 and 4, rows 6 to 9. -/
theorem test_frect : ∃ t, exec (.frect 1 6 2 4) ready = .next t ∧
    t.fb = [(3, 0xC0), (4, 0xC0), (11, 0x03), (12, 0x03)] := ⟨_, rfl, by decide⟩

/-- R112, by hand: the frame of `TS` two columns in. -/
theorem test_dframe : ∃ t, exec .dframe ready = .next t ∧ t.fb = [(2, 0xFF), (3, 0x01), (4, 0x01), (5, 0xFF),
    (10, 0xFF), (11, 0x80), (12, 0x80), (13, 0xFF)] := ⟨_, rfl, by decide +kernel⟩

/-- R128: two pages, four transfers each. -/
theorem test_flush : ∃ t, exec .flush (readyWith [(3, 0xC0), (15, 0x0F)] (List.replicate 8 .ok)) = .next t ∧
    transfersIn t.trace = [[0xB0], [0x00], [0x10], [0, 0, 0, 0xC0, 0, 0, 0, 0],
      [0xB1], [0x00], [0x10], [0, 0, 0, 0, 0, 0, 0, 0x0F]] ∧ t.dc = .high ∧ t.responses = [0x30] :=
  ⟨_, rfl, by decide, by decide, by decide⟩

/-- R155: the second transfer fails; RESP 0x38. -/
theorem test_flush_fails : ∃ t, exec .flush (readyWith [] [.ok, .fail]) = .next t ∧
    t.trace = [.drive .dc .low, .drive .cs .low, .xfer [0xB0], .drive .cs .high, .drive .dc .low, .drive .cs .low,
      .xfer [0x00], .drive .cs .high] ∧ t.responses = [0x38] := ⟨_, rfl, by decide, by decide⟩

/-- R126, R134: the trace of an INIT begins with the reset pulse; FB is cleared; RESP 0x30. -/
theorem test_init : ∃ t, exec .init (fresh (List.replicate 10 .ok) [.returns, .returns]) = .next t ∧
    t.trace.take 9 = [.drive .rst .high, .drive .rst .low, .delay 10, .drive .rst .high, .delay 100,
      .drive .dc .low, .drive .cs .low, .xfer [0xAE], .drive .cs .high] ∧ t.trace.length = 45 ∧ t.fb = [] ∧
    t.responses = [0x30] := ⟨_, rfl, by decide, by decide, by decide, by decide⟩

/-- R126, R155: a failure in INIT_SEQ leaves FB as it was and answers 0x28. -/
theorem test_init_fails : ∃ t, exec .init (fresh [.fail] [.returns, .returns]) = .next t ∧ t.fb = [(3, 0xC0)] ∧
    t.responses = [0x28] := ⟨_, rfl, by decide, by decide⟩

/-- R132: SETINV true sends CMD_INVERT; R157: unanswered, chip-select stays low and the next step leaves all as it was. -/
theorem test_setinv : (∃ t, exec (.setinv true) ready = .next t ∧
      t.trace = [.drive .dc .low, .drive .cs .low, .xfer [0xA7], .drive .cs .high]) ∧
    (∃ t, exec (.setinv false) (readyWith [] [.never]) = .next t ∧ t.cs = .low ∧ step t = .next t) :=
  ⟨⟨_, rfl, by decide⟩, ⟨_, rfl, by decide, rfl⟩⟩

/-! ### Witnesses of the statements' hypotheses -/

/-- An idle Ready CORE with a canonical framebuffer that is not empty. Witness of ClearZeroesEveryByte, FillSetsEveryByte,
DframeSetsItsRectangles, and with any operands of SetpixWritesOneBit, GetpixReadsThePixel, FrectSetsItsRectangle. -/
theorem test_witness_ready : (readyWith [(3, 0xC0)] []).admitsAll ∧ (readyWith [(3, 0xC0)] []).fb.wf :=
  ⟨⟨rfl, rfl⟩, by decide⟩

/-- The last pixel of `TS` is in bounds, the next ones are not: the clauses of SetpixWritesOneBit, ClearAndFillLaws,
PixelAccessorLaws, CoordinateMapIsABijection, and of Draws. -/
theorem test_witness_bounds : inBounds ts 7 15 ∧ ¬ inBounds ts 8 15 ∧ ¬ inBounds ts 7 16 ∧
    pixelIndex ts 7 15 = 15 ∧ 15 < ts.L ∧ (7, 15) ≠ (7, 14) ∧ (PixelState.set = PixelState.set) := by decide

/-- Witness of ClearAndFillLaws: the commands run; two framebuffers in range that differ under one configuration. -/
theorem test_witness_fill_laws : (∃ t, exec (.fill 0xFF) (readyWith [(3, 0xC0)] []) = .next t) ∧
    (∃ t, exec .clear (readyWith [(3, 0xC0)] []) = .next t) ∧ (∃ t, exec (.fill 0xFF) ready = .next t) ∧
    (readyWith [(3, 0xC0)] []).FbOk ∧ ready.FbOk ∧ (readyWith [(3, 0xC0)] []).cfg = ready.cfg :=
  ⟨⟨_, rfl⟩, ⟨_, rfl⟩, ⟨_, rfl⟩, ⟨by decide, by decide⟩, ⟨by decide, by decide⟩, rfl⟩

/-- Witness of PixelAccessorLaws and ClippedRectangleEqualsFullLoops. -/
theorem test_witness_memory : Memory.wf [(3, 0xC0), (15, 0x01)] ∧ ∀ d ∈ ([(3, 0xC0), (15, 0x01)] : Memory), d.1 < ts.L := by
  decide

/-- Witness of CopyimgCopiesSizeLessOne at both ends of its sizes, `0` and `L + 1`. -/
theorem test_witness_copyimg : ((0 : Word).toNat ≤ ready.cfg.L + 1 ∧ (0 : Word).toNat - 1 ≤ ([] : List Byte).length) ∧
    ((17 : Word).toNat ≤ ready.cfg.L + 1 ∧ (17 : Word).toNat - 1 ≤ (List.replicate 16 (0 : Byte)).length) ∧
    ready.admitsAll ∧ ready.fb.wf := ⟨by decide, by decide, ⟨rfl, rfl⟩, by decide⟩

/-- Witness of CopyimgAndRtextPreconditions, clause by clause. -/
theorem test_witness_preconditions : ready.cfg.L + 1 < (18 : Word).toNat ∧
    ((17 : Word).toNat ≤ ready.cfg.L + 1 ∧ (List.replicate 15 (0 : Byte)).length < (17 : Word).toNat - 1) ∧
    ([] : List Byte).length < (1 : Word).toNat ∧ ready.admitsAll := ⟨by decide, by decide, by decide, ⟨rfl, rfl⟩⟩

/-- Witness of RcharDrawsItsGlyph at its last position, code and scale. -/
theorem test_witness_rchar : (7 : Word).toNat < ready.cfg.W ∧ (15 : Word).toNat < ready.cfg.H ∧
    (127 : Word).toNat ≤ 127 ∧ 1 ≤ (3 : Word).toNat ∧ (3 : Word).toNat ≤ 3 ∧ ready.admitsAll ∧ ready.fb.wf :=
  ⟨by decide, by decide, by decide, by decide, by decide, ⟨rfl, rfl⟩, by decide⟩

/-- Witness of RcharReportsTheFirstFailure, clause by clause at the first failing values. -/
theorem test_witness_rchar_failures : (ready.cfg.W ≤ (8 : Word).toNat ∧ ready.cfg.H ≤ (16 : Word).toNat) ∧
    ((7 : Word).toNat < ready.cfg.W ∧ (15 : Word).toNat < ready.cfg.H ∧ 127 < (128 : Word).toNat) ∧
    ((127 : Word).toNat ≤ 127 ∧ (0 : Word).toNat < 1 ∧ 3 < (4 : Word).toNat) ∧ ready.admitsAll :=
  ⟨by decide, by decide, by decide, ⟨rfl, rfl⟩⟩

/-- Witness of RtextDrawsItsCharacters and RtextThatDrawsNothing, each of the five cases of the latter. -/
theorem test_witness_rtext : (2 : Word).toNat ≤ ([0x48, 0x49] : List Byte).length ∧ ready.admitsAll ∧ ready.fb.wf ∧
    ready.cfg.W ≤ (6 : Word).toNat + 2 ∧ ready.cfg.H ≤ (16 : Word).toNat ∧ 3 < (4 : Word).toNat ∧
    (0 : Word).toNat = 0 := ⟨by decide, ⟨rfl, rfl⟩, by decide, by decide, by decide, by decide, by decide⟩

/-- A pixel a glyph, a text, a rectangle and the frame cover, and one they do not (R103, R105, R110, R112). -/
theorem test_witness_covers : glyphCovers ts 3 5 0 1 7 11 ∧ ¬ glyphCovers ts 3 5 0 1 8 11 ∧
    textCovers ts 0 0 1 [0, 0] 7 6 ∧ rectCovers 1 6 2 4 4 9 ∧ ¬ rectCovers 1 6 2 4 2 9 ∧ frameCovers ts 5 15 := by
  refine ⟨by unfold glyphCovers; decide, by unfold glyphCovers; decide, ⟨by decide, by decide, by decide, by decide, 1, 0,
    by decide, by decide, by decide, by unfold glyphCovers; decide⟩, by unfold rectCovers; decide,
    by unfold rectCovers; decide, ⟨3, 0, 1, 16⟩, by decide, by unfold rectCovers; decide⟩

/-- Witness of MarginColumnsAreLeftAlone: one command of each of its three. -/
theorem test_witness_margin : (readyWith [(0, 0xC0)] []).fb.wf ∧
    (∃ t, exec (.rtext 0 0 .set 0 1 []) (readyWith [(0, 0xC0)] []) = .next t) ∧
    (∃ t, exec (.frect 0 0 8 8) (readyWith [(0, 0xC0)] []) = .next t) ∧
    (∃ t, exec .dframe (readyWith [(0, 0xC0)] []) = .next t) := ⟨by decide, ⟨_, rfl⟩, ⟨_, rfl⟩, ⟨_, rfl⟩⟩

/-- Witness of FlushSendsTheWholeFrame. -/
theorem test_witness_flush : ready.admitsAll ∧ transfersOk ready (4 * ready.cfg.NP) := by
  refine ⟨⟨rfl, rfl⟩, ?_⟩
  unfold transfersOk
  decide

/-- Witness of FlushAbortsAtAFailedTransfer and FlushHangsAtAnUnansweredTransfer, at the last transfer, a data block. -/
theorem test_witness_flush_stops : (readyWith [] (List.replicate 7 .ok ++ [.fail])).admitsAll ∧ 7 < 4 * ts.NP ∧
    transfersOk (readyWith [] (List.replicate 7 .ok ++ [.fail])) 7 ∧
    answerAt (readyWith [] (List.replicate 7 .ok ++ [.fail])) 7 = .fail ∧
    (readyWith [] [.never]).admitsAll ∧ transfersOk (readyWith [] [.never]) 0 ∧
    answerAt (readyWith [] [.never]) 0 = .never := by
  refine ⟨⟨rfl, rfl⟩, by decide, ?_, rfl, ⟨rfl, rfl⟩, ?_, rfl⟩ <;> (unfold transfersOk; decide)

/-- Witness of PageSelectBytes, FlushTraceShape: the last page. -/
theorem test_witness_pages : 1 < ts.NP ∧ ts.NP = 2 ∧ 7 < Config.reference.NP := by decide

/-- Witness of InitMakesTheCoreReady. -/
theorem test_witness_init : (fresh (List.replicate 10 .ok) [.returns, .returns]).busy = false ∧
    (fresh (List.replicate 10 .ok) [.returns, .returns]).fb.wf ∧
    delaysReturn (fresh (List.replicate 10 .ok) [.returns, .returns]) ∧
    transfersOk (fresh (List.replicate 10 .ok) [.returns, .returns]) (ts.initSeq.length + 4 * ts.NP) := by
  refine ⟨rfl, by decide, ⟨rfl, rfl⟩, ?_⟩
  unfold transfersOk
  decide

/-- Witness of InitAbortsAtAFailedTransfer: at the last transfer of INIT_SEQ, and at the last of the flush. -/
theorem test_witness_init_fails : (fresh [.ok, .fail] [.returns, .returns]).fb.wf ∧
    delaysReturn (fresh [.ok, .fail] [.returns, .returns]) ∧ 1 < ts.initSeq.length ∧
    transfersOk (fresh [.ok, .fail] [.returns, .returns]) 1 ∧
    answerAt (fresh [.ok, .fail] [.returns, .returns]) 1 = .fail ∧
    delaysReturn (fresh (List.replicate 9 .ok ++ [.fail]) [.returns, .returns]) ∧
    9 < ts.initSeq.length + 4 * ts.NP ∧
    transfersOk (fresh (List.replicate 9 .ok ++ [.fail]) [.returns, .returns]) 9 ∧
    answerAt (fresh (List.replicate 9 .ok ++ [.fail]) [.returns, .returns]) 9 = .fail := by
  refine ⟨by decide, ⟨rfl, rfl⟩, by decide, ?_, rfl, ⟨rfl, rfl⟩, by decide, ?_, rfl⟩ <;> (unfold transfersOk; decide)

/-- Witness of InitHangs: its first delay, its second, the last transfer of INIT_SEQ, the first of the flush. -/
theorem test_witness_init_hangs : (fresh [] [.never]).busy = false ∧ delayAt (fresh [] [.never]) 0 = .never ∧
    delayAt (fresh [] [.returns, .never]) 0 = .returns ∧ delayAt (fresh [] [.returns, .never]) 1 = .never ∧
    (fresh [.ok, .ok, .never] [.returns, .returns]).fb.wf ∧
    delaysReturn (fresh [.ok, .ok, .never] [.returns, .returns]) ∧ 2 < ts.initSeq.length + 4 * ts.NP ∧
    transfersOk (fresh [.ok, .ok, .never] [.returns, .returns]) 2 ∧
    answerAt (fresh [.ok, .ok, .never] [.returns, .returns]) 2 = .never ∧ ts.initSeq.length ≤ 2 ∧
    1 < ts.initSeq.length ∧ delaysReturn (fresh [.ok, .never] [.returns, .returns]) ∧
    transfersOk (fresh [.ok, .never] [.returns, .returns]) 1 ∧
    answerAt (fresh [.ok, .never] [.returns, .returns]) 1 = .never := by
  refine ⟨rfl, rfl, rfl, rfl, by decide, ⟨rfl, rfl⟩, by decide, ?_, rfl, by decide, by decide, ⟨rfl, rfl⟩, ?_, rfl⟩ <;>
    (unfold transfersOk; decide)

/-- Witness of SetinvSendsItsModeByte, each answer. -/
theorem test_witness_setinv : ready.admitsAll ∧ (0xA7 : Byte) = (if true then ready.cfg.cmdInvert else ready.cfg.cmdNormal) ∧
    answerAt ready 0 = .ok ∧ answerAt (readyWith [] [.fail]) 0 = .fail ∧ answerAt (readyWith [] [.never]) 0 = .never :=
  ⟨⟨rfl, rfl⟩, rfl, rfl, rfl, rfl⟩

/-- Witness of DriveSetsItsLine's last clause. -/
theorem test_witness_drive : Line.cs ≠ Line.dc ∧ lineLevel .cs ready = .high := by decide

/-- Witness of StepRunsThePresentedCommand and DecodedCommandReencodes. -/
theorem test_witness_step : ready.busy = false ∧
    (present ⟨0xA5000000000000000002#80, []⟩ ready).pending = ⟨0xA5000000000000000002#80, []⟩ :: [] ∧
    decodeCommand 0xA5000000000000000002#80 [] = .ok (.fill 0xA5) ∧
    decodeCommand 0x00000000040000000005#80 [0x11, 0x22, 0x33, 0x44] = .ok (.copyimg 4 [0x11, 0x22, 0x33]) :=
  ⟨rfl, rfl, by decide, by decide⟩

/-- Witness of NoWordSatisfiesTwoRows: a word that satisfies a row. -/
theorem test_witness_rows : ∃ r ∈ opcodeTable, 0xA5000000000000000002#80 &&& r.mask = r.pattern := by decide

/-- Witness of IllegalWordsAreRefused: SETPIX with a reserved bit of `E`, presented to an idle CORE. -/
theorem test_witness_illegal : ready.busy = false ∧
    ∀ r ∈ opcodeTable, (0x02000000000000000003#80 : CommandWord) &&& r.mask ≠ r.pattern := ⟨rfl, by decide⟩

/-- Witness of PayloadLengthRules, clause by clause. -/
theorem test_witness_payload : selectRow 0x01000100020000000011#80 = some .rtext ∧
    ([0x48] : List Byte).length < (fieldC 0x01000100020000000011#80).toNat ∧
    (fieldC 0x01000100020000000011#80).toNat ≤ ([0x48, 0x49] : List Byte).length ∧
    selectRow 0x00000000040000000005#80 = some .copyimg ∧
    ([0x11, 0x22] : List Byte).length < (fieldC 0x00000000040000000005#80).toNat - 1 ∧
    (fieldC 0x00000000040000000005#80).toNat - 1 ≤ ([0x11, 0x22, 0x33] : List Byte).length ∧
    selectRow 0x00000000000000000001#80 = some .clear ∧ ([0x00] : List Byte) ≠ [] := by decide

/-- Witness of IdleCoreWaitsAndHungCoreStaysHung and CommandsWhileBusyAreRefused. -/
theorem test_witness_idle_and_hung : (ready.busy = false ∧ ready.pending = []) ∧
    ∃ t, exec .flush (readyWith [] [.never]) = .next t ∧ t.busy = true := ⟨⟨rfl, rfl⟩, _, rfl, rfl⟩

/-- Witness of AdmissionByControllerState, clause by clause. -/
theorem test_witness_admission : State.reset.busy = false ∧ Instr.flush ≠ .init ∧ State.reset.ctrl ≠ .ready ∧
    ready.busy = false ∧ ready.ctrl = .ready := ⟨rfl, by decide, by decide, rfl, rfl⟩

/-- Witness of ResetMeetsTheInvariants: a power-up content with the first and the last index of `TS`. -/
theorem test_witness_reset : Memory.wf [(0, 0x5A), (15, 0xFF)] ∧ ∀ c ∈ ([(0, 0x5A), (15, 0xFF)] : Memory), c.1 < ts.L := by
  decide


/-- Witness of EveryStepKeepsTheInvariant, EveryStepKeepsTransfersFramed and StepsOnlyAppend: a reset state in which the
step refuses nothing, an INIT to which a transfer fails. -/
theorem test_witness_step_invariants :
    (present ⟨0x00000000000000000020#80, []⟩ (fresh [.ok, .fail] [.returns, .returns])).Inv ∧
    (present ⟨0x00000000000000000020#80, []⟩ (fresh [.ok, .fail] [.returns, .returns])).Framed ∧
    ∃ t, step (present ⟨0x00000000000000000020#80, []⟩ (fresh [.ok, .fail] [.returns, .returns])) = .next t ∧
      t.xfail = true ∧ ∃ u, step (present ⟨0x00000000000000000020#80, []⟩ t) = .next u := by
  refine ⟨⟨⟨by decide, by decide⟩, ⟨rfl, rfl, rfl⟩, fun _ => ⟨rfl, rfl, nofun, nofun⟩⟩,
    ⟨(.released, .low), rfl, rfl, fun _ => rfl⟩, _, rfl, rfl, _, rfl⟩

/-- Witness of OnlyInitMovesCtrl, FlagsHaveOneWriter, DrawingCommandsAreSilent, NoCommandReadsAFlag and
CompletedCommandsRespondOnce: commands that run, one completing and one waiting for ever. -/
theorem test_witness_commands_run : (∃ t, exec (.fill 1) ready = .next t ∧ t.busy = false) ∧
    (∃ t, exec .init (fresh (List.replicate 10 .ok) [.returns, .returns]) = .next t ∧ t.busy = false) ∧
    (∃ t, exec (.setinv true) (readyWith [] [.never]) = .next t ∧ t.busy = true) ∧
    (∃ t, exec (.rchar 8 0 .set 0 1) ready = .next t ∧ t.status = .outOfBounds) ∧
    (∃ t, exec (.getpix 3 6) (readyWith [(3, 0xC0)] []) = .next t ∧ t.pixval = true) ∧ Instr.fill 1 ≠ .init ∧
    Instr.fill 1 ≠ .flush ∧ (∀ v, Instr.fill 1 ≠ .setinv v) ∧ (∀ x y, Instr.fill 1 ≠ .getpix x y) ∧
    ∀ x y p c k, Instr.fill 1 ≠ .rchar x y p c k :=
  ⟨⟨_, rfl, rfl⟩, ⟨_, rfl, rfl⟩, ⟨_, rfl, rfl⟩, ⟨_, rfl, rfl⟩, ⟨_, rfl, by decide⟩, nofun, nofun, nofun, nofun, nofun⟩

end Sys2Proof.Tests
end

/-! PROOFS. The state after reset, and what every command and every step leaves of the state (10_state.md). -/

namespace Sys2Proof.Machine

/-! ### Refusal while busy -/

theorem whenIdle_busy {s : State} (h : s.busy = true) (k : Host.Outcome State Fault Refusal) :
    whenIdle s k = .refused .commandWhileBusy := if_pos h

theorem whenReady_busy {s : State} (h : s.busy = true) (k : Host.Outcome State Fault Refusal) :
    whenReady s k = .refused .commandWhileBusy := whenIdle_busy h _

/-- Settles O11: the admission, which every meaning begins with, asks for an idle CORE first. -/
theorem commandsWhileBusyAreRefused : Obligations.CommandsWhileBusyAreRefused := by
  intro i s h
  cases i with
  | init => exact whenIdle_busy h _
  | _ => exact whenReady_busy h _

/-! ### Reset -/

theorem responseWord_powerOn (cfg : Config) (fb : Memory) : responseWord (State.powerOn cfg fb) = 0x00 := by
  simp [responseWord, State.powerOn, Ctrl.code, Status.code]

/-- Settles O12: each value is the one R35 gives. -/
theorem resetValues : Obligations.ResetValues :=
  ⟨fun cfg fb => ⟨rfl, rfl, rfl, rfl, rfl, rfl, rfl, rfl, rfl, rfl, rfl, responseWord_powerOn cfg fb⟩, rfl⟩

/-- TRACE is empty after reset, so every line stands at its reset level, and `CTRL` is `Uninitialized`. -/
theorem powerOn_inv {cfg : Config} {fb : Memory} (hw : fb.wf) (hb : ∀ c ∈ fb, c.1 < cfg.L) :
    (State.powerOn cfg fb).Inv :=
  ⟨⟨hw, hb⟩, ⟨rfl, rfl, rfl⟩, fun _ => ⟨rfl, rfl, nofun, nofun⟩⟩

/-- After reset no event has left the bus anywhere but released, with DC low. -/
theorem powerOn_framed (cfg : Config) (fb : Memory) : (State.powerOn cfg fb).Framed :=
  ⟨(.released, .low), rfl, rfl, fun _ => rfl⟩

/-- Settles O13, from the invariants after reset with any content of FB; `State.reset` lists no byte. -/
theorem resetMeetsTheInvariants : Obligations.ResetMeetsTheInvariants :=
  ⟨fun cfg fb hw hb => ⟨powerOn_inv hw hb, powerOn_framed cfg fb⟩, powerOn_inv ⟨.nil, nofun⟩ nofun,
    powerOn_framed _ _⟩

/-! ### What transfers and delays leave of the state -/

/-- The state in which a run of transfers and delays ended. -/
def Progress.state (r : Progress) : State :=
  match r with
  | .going s => s
  | .failed s => s
  | .hung s => s

@[simp] theorem Progress.state_going (s : State) : (Progress.going s).state = s := rfl
@[simp] theorem Progress.state_failed (s : State) : (Progress.failed s).state = s := rfl
@[simp] theorem Progress.state_hung (s : State) : (Progress.hung s).state = s := rfl

@[simp] theorem Progress.finish_cfg (r : Progress) : r.finish.cfg = r.state.cfg := by cases r <;> rfl
@[simp] theorem Progress.finish_ctrl (r : Progress) : r.finish.ctrl = r.state.ctrl := by cases r <;> rfl
@[simp] theorem Progress.finish_status (r : Progress) : r.finish.status = r.state.status := by cases r <;> rfl
@[simp] theorem Progress.finish_pixval (r : Progress) : r.finish.pixval = r.state.pixval := by cases r <;> rfl
@[simp] theorem Progress.finish_xfail (r : Progress) : r.finish.xfail = r.state.xfail := by cases r <;> rfl
@[simp] theorem Progress.finish_trace (r : Progress) : r.finish.trace = r.state.trace := by cases r <;> rfl

/-- A command with transfers or delays returns its response, or waits for ever and returns none (R155, R157). -/
theorem Progress.finish_responses (r : Progress) :
    r.finish.responses = r.state.responses ∨ r.finish.responses = r.state.responses ++ [responseWord r.finish] := by
  cases r with
  | going s => exact .inr rfl
  | failed s => exact .inr rfl
  | hung s => exact .inl rfl

/-- `u` is reached from `s` by sending: TRACE only grows, XFAIL is never cleared, and the configuration, the responses,
STATUS and PIXVAL are as they were. -/
structure SentFrom (s u : State) : Prop where
  cfg : u.cfg = s.cfg
  trace : ∃ es, u.trace = s.trace ++ es
  responses : u.responses = s.responses
  status : u.status = s.status
  pixval : u.pixval = s.pixval
  xfail : s.xfail = true → u.xfail = true

theorem SentFrom.trans {s u v : State} (h : SentFrom s u) (h' : SentFrom u v) : SentFrom s v where
  cfg := h'.cfg.trans h.cfg
  trace := by
    obtain ⟨es, hes⟩ := h.trace
    obtain ⟨fs, hfs⟩ := h'.trace
    exact ⟨es ++ fs, by rw [hfs, hes, List.append_assoc]⟩
  responses := h'.responses.trans h.responses
  status := h'.status.trans h.status
  pixval := h'.pixval.trans h.pixval
  xfail := h'.xfail ∘ h.xfail

theorem afterWrites_sentFrom (ws : List FramedWrite) (s : State) : SentFrom s (afterWrites ws s) :=
  ⟨rfl, ⟨_, rfl⟩, rfl, rfl, rfl, id⟩

theorem openWrite_sentFrom (w : FramedWrite) (s : State) : SentFrom s (openWrite w s) :=
  ⟨by simp, ⟨_, openWrite_trace w s⟩, by simp, by simp, by simp, by simp⟩

theorem transportFail_sentFrom (s : State) : SentFrom s (transportFail s) :=
  ⟨rfl, ⟨_, rfl⟩, rfl, rfl, rfl, fun _ => rfl⟩

theorem inFirstDelay_sentFrom (s : State) : SentFrom s (inFirstDelay s) := by
  rw [inFirstDelay_eq]
  exact ⟨rfl, ⟨_, rfl⟩, rfl, rfl, rfl, id⟩

theorem inSecondDelay_sentFrom (s : State) : SentFrom s (inSecondDelay s) := by
  rw [inSecondDelay_eq]
  exact ⟨rfl, ⟨_, rfl⟩, rfl, rfl, rfl, id⟩

theorem afterPulse_sentFrom (s : State) : SentFrom s (afterPulse s) := by
  rw [afterPulse_eq]
  exact ⟨rfl, ⟨_, rfl⟩, rfl, rfl, rfl, id⟩

theorem afterSequence_sentFrom (s : State) : SentFrom s (afterSequence s) := by
  rw [afterSequence_eq]
  exact ⟨rfl, ⟨_, List.append_assoc _ _ _⟩, rfl, rfl, rfl, id⟩

/-- The write that is not answered ok, after those before it. -/
theorem stoppedWrite_sentFrom (pre : List FramedWrite) (w : FramedWrite) (s : State) :
    SentFrom s (openWrite w (afterWrites pre s)) :=
  (afterWrites_sentFrom pre s).trans (openWrite_sentFrom w _)

theorem sendAll_sentFrom (ws : List FramedWrite) (s : State) : SentFrom s (sendAll ws s).state := by
  rcases sendAll_cases ws s with h | ⟨pre, w, post, -, h⟩ | ⟨pre, w, post, -, h⟩ <;> rw [h]
  · exact afterWrites_sentFrom ws s
  · exact (stoppedWrite_sentFrom pre w s).trans (transportFail_sentFrom _)
  · exact stoppedWrite_sentFrom pre w s

theorem initBody_sentFrom (s : State) : SentFrom s (initBody s).state := by
  rcases initBody_cases s with ⟨u, h, hu⟩ | ⟨ws, pre, w, post, u, hu, -, h⟩ | h
  · rw [h]
    rcases hu with rfl | rfl
    · exact inFirstDelay_sentFrom s
    · exact inSecondDelay_sentFrom s
  · have hsu : SentFrom s u := by
      rcases hu with ⟨-, rfl⟩ | ⟨-, rfl⟩
      · exact afterPulse_sentFrom s
      · exact afterSequence_sentFrom s
    have hsw := hsu.trans (stoppedWrite_sentFrom pre w u)
    rcases h with h | h <;> rw [h]
    · exact hsw.trans (transportFail_sentFrom _)
    · exact hsw
  · rw [h]
    exact { (afterSequence_sentFrom s).trans (afterWrites_sentFrom _ _) with }

/-- INIT, FLUSH and SETINV are a run of transfers and delays (R126, R129, R132). -/
theorem exec_controller {i : Instr} {s t : State} (hi : i = .init ∨ i = .flush ∨ ∃ v, i = .setinv v)
    (h : exec i s = .next t) : ∃ r : Progress, t = r.finish ∧ SentFrom s r.state := by
  rcases hi with rfl | rfl | ⟨v, rfl⟩
  · exact ⟨_, (exec_init h).2, initBody_sentFrom s⟩
  · exact ⟨_, (exec_flush h).2, sendAll_sentFrom _ s⟩
  · exact ⟨_, (exec_setinv h).2, sendAll_sentFrom _ s⟩

/-! ### What a step never takes back -/

/-- A command that runs keeps the configuration and XFAIL once set, and extends TRACE and the responses. -/
theorem exec_onlyAppends {i : Instr} {s t : State} (h : exec i s = .next t) :
    t.cfg = s.cfg ∧ (∃ es, t.trace = s.trace ++ es) ∧
      (t.responses = s.responses ∨ t.responses = s.responses ++ [responseWord t]) ∧
      (s.xfail = true → t.xfail = true) := by
  rcases isDrawing_or i with hi | hi
  · obtain ⟨-, fb, st, pv, rfl, -⟩ := exec_drawing hi h
    exact ⟨rfl, ⟨[], (List.append_nil _).symm⟩, .inr rfl, id⟩
  · obtain ⟨r, rfl, hr⟩ := exec_controller hi h
    rw [r.finish_cfg, r.finish_trace, r.finish_xfail, ← hr.responses]
    exact ⟨hr.cfg, hr.trace, r.finish_responses, hr.xfail⟩

/-- Settles O16: a step waits or runs a command, and taking the command from the port touches none of these fields. -/
theorem stepsOnlyAppend : Obligations.StepsOnlyAppend := by
  intro s t h
  rcases step_cases h with rfl | ⟨-, i, hi⟩
  · exact ⟨rfl, ⟨[], (List.append_nil _).symm⟩, .inl rfl, id⟩
  · exact exec_onlyAppends (s := takeCommand s) hi

/-! ### Who moves CTRL -/

theorem sendAll_ctrl (ws : List FramedWrite) (s : State) : (sendAll ws s).state.ctrl = s.ctrl := by
  rcases sendAll_cases ws s with h | ⟨pre, w, post, -, h⟩ | ⟨pre, w, post, -, h⟩ <;> simp [h]

theorem exec_keeps_ctrl {i : Instr} {s t : State} (hi : i ≠ .init) (h : exec i s = .next t) : t.ctrl = s.ctrl := by
  rcases isDrawing_or i with hd | rfl | rfl | ⟨v, rfl⟩
  · obtain ⟨-, fb, st, pv, rfl, -⟩ := exec_drawing hd h
    rfl
  · exact absurd rfl hi
  · rw [(exec_flush h).2, Progress.finish_ctrl, sendAll_ctrl]
  · rw [(exec_setinv h).2, Progress.finish_ctrl, sendAll_ctrl]

/-- Where an INIT leaves `CTRL` (R126, R155, R157). -/
theorem initBody_ends (s : State) :
    (∃ u, initBody s = .going u ∧ u.ctrl = .ready) ∨
    (∃ u, initBody s = .failed u ∧ u.ctrl = .configuring ∧ u.xfail = true) ∨
    (∃ u, initBody s = .hung u ∧ (u.ctrl = .resetting ∨ u.ctrl = .configuring)) := by
  rcases initBody_cases s with ⟨u, h, hu⟩ | ⟨ws, pre, w, post, u, hu, -, h⟩ | h
  · refine .inr (.inr ⟨u, h, .inl ?_⟩)
    rcases hu with rfl | rfl
    · rw [inFirstDelay_eq]
    · rw [inSecondDelay_eq]
  · have hc : u.ctrl = .configuring := by
      rcases hu with ⟨-, rfl⟩ | ⟨-, rfl⟩
      · rw [afterPulse_eq]
      · rw [afterSequence_eq]
    rcases h with h | h
    · exact .inr (.inl ⟨_, h, by simp [hc], rfl⟩)
    · exact .inr (.inr ⟨_, h, .inr (by simp [hc])⟩)
  · exact .inl ⟨_, h, rfl⟩

/-- Settles O17, from where each end of INIT's body leaves `CTRL`. -/
theorem onlyInitMovesCtrl : Obligations.OnlyInitMovesCtrl := by
  refine ⟨fun _ _ _ => exec_keeps_ctrl, fun s t h => ?_⟩
  rw [(exec_init h).2]
  rcases initBody_ends s with ⟨u, hu, hc⟩ | ⟨u, hu, hc, hx⟩ | ⟨u, hu, hc⟩ <;> rw [hu]
  · exact .inl ⟨rfl, hc⟩
  · exact .inr (.inl ⟨rfl, hc, hx⟩)
  · exact .inr (.inr ⟨rfl, hc⟩)

/-! ### Who writes the flags -/

/-- Settles O18: a drawing command writes STATUS and PIXVAL only as RCHAR and GETPIX, sending writes neither, and only
the three controller commands send. -/
theorem flagsHaveOneWriter : Obligations.FlagsHaveOneWriter := by
  intro i s t h
  rcases isDrawing_or i with hi | hi
  · obtain ⟨-, fb, st, pv, rfl, -, hst, hpv⟩ := exec_drawing hi h
    exact ⟨hst, hpv, fun _ => rfl⟩
  · obtain ⟨r, rfl, hr⟩ := exec_controller hi h
    refine ⟨fun _ => r.finish_status.trans hr.status, fun _ => r.finish_pixval.trans hr.pixval, ?_⟩
    rintro ⟨hinit, hflush, hsetinv⟩
    simp [hinit, hflush, hsetinv] at hi

/-! ### No command reads a flag -/

/-- Two states that agree in everything but the responses and the flags, and agree in STATUS, PIXVAL and XFAIL where
`S`, `V` and `X` hold. -/
structure AgreeApart (S V X : Prop) (s s' : State) : Prop where
  cfg : s'.cfg = s.cfg
  fb : s'.fb = s.fb
  ctrl : s'.ctrl = s.ctrl
  cs : s'.cs = s.cs
  dc : s'.dc = s.dc
  rst : s'.rst = s.rst
  trace : s'.trace = s.trace
  busy : s'.busy = s.busy
  pending : s'.pending = s.pending
  answers : s'.answers = s.answers
  delays : s'.delays = s.delays
  status : S → s'.status = s.status
  pixval : V → s'.pixval = s.pixval
  xfail : X → s'.xfail = s.xfail

/-- Two runs of transfers and delays that ended in the same way, in states related by `R`. -/
inductive Progress.Both (R : State → State → Prop) : Progress → Progress → Prop
  | going {s s' : State} (h : R s s') : Both R (.going s) (.going s')
  | failed {s s' : State} (h : R s s') : Both R (.failed s) (.failed s')
  | hung {s s' : State} (h : R s s') : Both R (.hung s) (.hung s')

theorem Progress.Both.andThen {R : State → State → Prop} {r r' : Progress} {f f' : State → Progress}
    (h : Both R r r') (hf : ∀ {s s'}, R s s' → Both R (f s) (f' s')) : Both R (r.andThen f) (r'.andThen f') := by
  cases h with
  | going h => exact hf h
  | failed h => exact .failed h
  | hung h => exact .hung h

section
variable {S V X : Prop} {s s' : State}

theorem AgreeApart.setCtrl (h : AgreeApart S V X s s') (c : Ctrl) :
    AgreeApart S V X { s with ctrl := c } { s' with ctrl := c } := { h with ctrl := rfl }

theorem AgreeApart.setFb (h : AgreeApart S V X s s') {m m' : Memory} (hm : m' = m) :
    AgreeApart S V X { s with fb := m } { s' with fb := m' } := { h with fb := hm }

theorem AgreeApart.respond (h : AgreeApart S V X s s') : AgreeApart S V X (respond s) (respond s') :=
  { h with busy := rfl }

theorem Progress.Both.finish {r r' : Progress} (h : r.Both (AgreeApart S V X) r') :
    AgreeApart S V X r.finish r'.finish := by
  cases h with
  | going h => exact h.respond
  | failed h => exact h.respond
  | hung h => exact { h with busy := rfl }

theorem AgreeApart.drive (h : AgreeApart S V X s s') (l : Line) (v : Level) :
    AgreeApart S V X (drive l v s) (drive l v s') := by
  have htrace : (Machine.drive l v s').trace = (Machine.drive l v s).trace := by simp [h.trace]
  cases l with
  | cs => exact { h with cs := rfl, trace := htrace }
  | dc => exact { h with dc := rfl, trace := htrace }
  | rst => exact { h with rst := rfl, trace := htrace }

theorem AgreeApart.xfer (h : AgreeApart S V X s s') (bs : List Byte) :
    AgreeApart S V X (xfer bs s) (xfer bs s') :=
  { h with trace := by simp [h.trace], answers := by simp [h.answers] }

theorem AgreeApart.delayEvent (h : AgreeApart S V X s s') (n : Nat) :
    AgreeApart S V X (delayEvent n s) (delayEvent n s') :=
  { h with trace := by simp [h.trace], delays := by simp [h.delays] }

theorem AgreeApart.openWrite (h : AgreeApart S V X s s') (w : FramedWrite) :
    AgreeApart S V X (openWrite w s) (openWrite w s') :=
  ((h.drive .dc w.level).drive .cs .low).xfer w.bytes

theorem AgreeApart.transportFail (h : AgreeApart S V X s s') :
    AgreeApart S V X (transportFail s) (transportFail s') :=
  { h.drive .cs .high with xfail := fun _ => rfl }

theorem AgreeApart.answerAt (h : AgreeApart S V X s s') (k : Nat) : answerAt s' k = answerAt s k := by
  simp [Machine.answerAt, h.answers, h.trace]

theorem AgreeApart.delayAt (h : AgreeApart S V X s s') (k : Nat) : delayAt s' k = delayAt s k := by
  simp [Machine.delayAt, h.delays, h.trace]

theorem AgreeApart.delay (h : AgreeApart S V X s s') {n n' : Nat} (hn : n' = n) :
    (delay n s).Both (AgreeApart S V X) (delay n' s') := by
  subst hn
  unfold Machine.delay
  rw [h.delayAt]
  cases Machine.delayAt s 0 with
  | returns => exact .going (h.delayEvent n')
  | never => exact .hung (h.delayEvent n')

theorem AgreeApart.sendWrite (h : AgreeApart S V X s s') (w : FramedWrite) :
    (sendWrite w s).Both (AgreeApart S V X) (sendWrite w s') := by
  unfold Machine.sendWrite
  rw [h.answerAt]
  cases Machine.answerAt s 0 with
  | ok => exact .going ((h.openWrite w).drive .cs .high)
  | fail => exact .failed (h.openWrite w).transportFail
  | never => exact .hung (h.openWrite w)

theorem AgreeApart.sendAll (h : AgreeApart S V X s s') {ws ws' : List FramedWrite} (hws : ws' = ws) :
    (sendAll ws s).Both (AgreeApart S V X) (sendAll ws' s') := by
  subst hws
  induction ws' generalizing s s' with
  | nil => exact .going h
  | cons w ws ih => exact (h.sendWrite w).andThen ih

theorem AgreeApart.flushBody (h : AgreeApart S V X s s') :
    (flushBody s).Both (AgreeApart S V X) (flushBody s') :=
  h.sendAll (by rw [h.cfg, h.fb])

theorem AgreeApart.initBody (h : AgreeApart S V X s s') :
    (initBody s).Both (AgreeApart S V X) (initBody s') := by
  refine ((((h.setCtrl .resetting).drive .rst .high).drive .rst .low).delay (by rw [h.cfg])).andThen fun h => ?_
  refine ((h.drive .rst .high).delay (by rw [h.cfg])).andThen fun h => ?_
  refine ((h.setCtrl .configuring).sendAll (by rw [h.cfg])).andThen fun h => ?_
  exact (h.setFb (by rw [h.cfg, h.fb])).flushBody.andThen fun h => .going (h.setCtrl .ready)

/-- A command admitted in one state is admitted in a state with the same busy bit and the same `CTRL` (R70). -/
theorem whenReady_rerun {R : State → State → Prop} {t : State} {k k' : Host.Outcome State Fault Refusal}
    (hb : s'.busy = s.busy) (hc : s'.ctrl = s.ctrl) (hk : k = .next t → ∃ t', k' = .next t' ∧ R t t')
    (h : whenReady s k = .next t) : ∃ t', whenReady s' k' = .next t' ∧ R t t' := by
  obtain ⟨⟨hidle, hready⟩, hn⟩ := whenReady_next h
  rw [whenReady_run ⟨hb.trans hidle, hc.trans hready⟩]
  exact hk hn

/-- Commands that complete in states that agree end in states that agree. -/
theorem AgreeApart.complete (h : AgreeApart S V X s s') {t : State} (hc : complete s = .next t) :
    ∃ t', complete s' = .next t' ∧ AgreeApart S V X t t' :=
  ⟨_, rfl, complete_next hc ▸ h.respond⟩

end

/-- A command that runs in a state runs in every state that differs only in the flags, and the two states it leaves
agree: in STATUS after RCHAR, in PIXVAL after GETPIX, and in XFAIL where they did before. -/
theorem exec_agree {i : Instr} {s t : State} (h : exec i s = .next t) (st : Status) (pv xf : Bool) :
    ∃ t', exec i { s with status := st, pixval := pv, xfail := xf } = .next t' ∧
      AgreeApart (∃ x y p c k, i = .rchar x y p c k) (∃ x y, i = .getpix x y) (xf = s.xfail) t t' := by
  have start : ∀ {S V : Prop}, ¬ S → ¬ V → ∀ m, AgreeApart S V (xf = s.xfail)
      { s with fb := m } { s with fb := m, status := st, pixval := pv, xfail := xf } := fun hS hV m =>
    ⟨rfl, rfl, rfl, rfl, rfl, rfl, rfl, rfl, rfl, rfl, rfl, (absurd · hS), (absurd · hV), id⟩
  cases i with
  | clear | fill pattern | setpix x y p | frect x y w hh | dframe =>
    exact whenReady_rerun rfl rfl (start (by simp) (by simp) _).complete h
  | getpix x y =>
    refine whenReady_rerun rfl rfl (AgreeApart.complete ?_) h
    exact { start not_false not_false s.fb with status := by simp, pixval := fun _ => rfl }
  | rchar x y p c k =>
    refine whenReady_rerun rfl rfl (AgreeApart.complete ?_) h
    exact { start not_false not_false s.fb with fb := rfl, status := fun _ => rfl, pixval := by simp }
  | copyimg size src =>
    refine whenReady_rerun rfl rfl (fun hk => ?_) h
    split at hk
    · cases hk
    · next hsize =>
      split at hk
      · next hbytes =>
        rw [if_neg hsize, if_pos hbytes]
        exact (start (by simp) (by simp) _).complete hk
      · cases hk
  | rtext x y p len k text =>
    refine whenReady_rerun rfl rfl (fun hk => ?_) h
    split at hk
    · next hbytes =>
      rw [if_pos hbytes]
      exact (start (by simp) (by simp) _).complete hk
    · cases hk
  | init =>
    obtain ⟨hb, rfl⟩ := exec_init h
    exact ⟨_, exec_init_run hb, (start (by simp) (by simp) s.fb).initBody.finish⟩
  | flush =>
    obtain ⟨ha, rfl⟩ := exec_flush h
    exact ⟨_, exec_flush_run ha, (start (by simp) (by simp) s.fb).flushBody.finish⟩
  | setinv v =>
    obtain ⟨ha, rfl⟩ := exec_setinv h
    exact ⟨_, exec_setinv_run (s := { s with status := st, pixval := pv, xfail := xf }) ha v,
      ((start (by simp) (by simp) s.fb).sendAll rfl).finish⟩

/-- Settles O20: the two runs meet the same answers, since no answer depends on a flag, and end in states that agree. -/
theorem noCommandReadsAFlag : Obligations.NoCommandReadsAFlag := by
  intro i s t st pv xf h
  obtain ⟨t', he, ha⟩ := exec_agree h st pv xf
  exact ⟨t', he, ha.fb, ha.trace, ha.ctrl, ha.cs, ha.dc, ha.rst, ha.busy, ha.answers, ha.delays, ha.cfg, ha.pending,
    ha.status, ha.pixval, ha.xfail⟩

end Sys2Proof.Machine

/-! PROOFS. The framebuffer space (20_memory.md): the coordinate map, the silence of the drawing commands, and the
invariant every step keeps. -/

namespace Sys2Proof.Machine

/-! ### The coordinate map -/

/-- Settles O29, from the range of the index, the pixel of each bit, and that no two pixels share one. -/
theorem coordinateMapIsABijection : Obligations.CoordinateMapIsABijection := by
  intro c
  refine ⟨fun _ _ => pixelIndex_lt, fun _ _ => pixel_of_byte, fun x y x' y' h h' hi hb => ?_⟩
  exact pixel_inj h.1 h'.1 hi hb

/-! ### Drawing commands are silent -/

/-- Settles O19: a drawing command that runs writes FB, STATUS and PIXVAL, and responds; an idle CORE admitted it and an
idle CORE is left. -/
theorem drawingCommandsAreSilent : Obligations.DrawingCommandsAreSilent := by
  intro i s t hinit hflush hsetinv h
  obtain ⟨⟨hidle, -⟩, fb, st, pv, rfl, -⟩ := exec_drawing ⟨hinit, hflush, hsetinv⟩ h
  exact ⟨rfl, rfl, rfl, rfl, rfl, rfl, hidle.symm, rfl, rfl, rfl, rfl⟩

/-! ### The invariant within a command -/

/-- What holds at every point of a run of transfers and delays, inside a framed write too. -/
structure State.Sound (s : State) : Prop where
  fb : s.FbOk
  lines : s.LinesOk

/-- What holds between two framed writes: chip-select and reset are high besides. -/
structure State.Steady (s : State) : Prop extends State.Sound s where
  cs : s.cs = .high
  rst : s.rst = .high

theorem State.Inv.steady {s : State} (h : s.Inv) (hidle : s.busy = false) : s.Steady := by
  obtain ⟨hfb, hlines, hrest⟩ := h
  obtain ⟨hcs, hrst, -⟩ := hrest hidle
  exact ⟨⟨hfb, hlines⟩, hcs, hrst⟩

/-- A command that ends where `CTRL` may rest leaves the invariant with its response. -/
theorem State.Steady.respond_inv {s : State} (h : s.Steady) (hr : s.ctrl ≠ .resetting)
    (hc : s.ctrl = .configuring → s.xfail = true) : (respond s).Inv :=
  ⟨h.fb, h.lines, fun _ => ⟨h.cs, h.rst, hr, hc⟩⟩

/-- A command that waits for ever leaves a busy CORE, of which the invariant asks no more (R157). -/
theorem State.Sound.hung_inv {s : State} (h : s.Sound) : (Progress.hung s).finish.Inv :=
  ⟨h.fb, h.lines, nofun⟩

/-- `FbOk` speaks of FB and of the configuration only. -/
theorem State.FbOk.congr {s u : State} (h : s.FbOk) (hfb : u.fb = s.fb) (hcfg : u.cfg = s.cfg) : u.FbOk := by
  rw [FbOk, hfb, hcfg]
  exact h

theorem fillBytes_fbOk {s : State} (h : s.FbOk) (v : Byte) : { s with fb := fillBytes s.cfg s.fb v }.FbOk :=
  ⟨fillBytes_wf s.cfg h.1 v, fillBytes_below s.cfg h.2 v⟩

/-! ### Framed writes -/

theorem afterWrites_steady {s : State} (h : s.Steady) (ws : List FramedWrite) : (afterWrites ws s).Steady where
  fb := h.fb.congr (afterWrites_fb ws s) (afterWrites_cfg ws s)
  lines := afterWrites_linesOk h.lines ws
  cs := by simp [h.cs]
  rst := by simp [h.rst]

theorem openWrite_sound {s : State} (h : s.Sound) (w : FramedWrite) : (openWrite w s).Sound where
  fb := h.fb.congr (openWrite_fb w s) (openWrite_cfg w s)
  lines := openWrite_linesOk h.lines w

/-- A failed transfer's bracket is closed (R155). -/
theorem failedWrite_steady {s : State} (h : s.Steady) (w : FramedWrite) : (transportFail (openWrite w s)).Steady where
  fb := h.fb.congr (by simp) (by simp)
  lines := transportFail_linesOk (openWrite_linesOk h.lines w)
  cs := transportFail_cs _
  rst := by simp [h.rst]

/-- A command aborted at a failed transfer keeps the invariant: XFAIL allows `Configuring` (R155). -/
theorem failedWrite_inv {s : State} (h : s.Steady) (hr : s.ctrl ≠ .resetting) (w : FramedWrite) :
    (respond (transportFail (openWrite w s))).Inv :=
  (failedWrite_steady h w).respond_inv (by simpa using hr) fun _ => transportFail_xfail _

/-- Framed writes sent in `Ready` end in the invariant, whatever the transport answers. -/
theorem sendAll_inv {s : State} (h : s.Steady) (hready : s.ctrl = .ready) (ws : List FramedWrite) :
    (sendAll ws s).finish.Inv := by
  rcases sendAll_cases ws s with he | ⟨pre, w, post, -, he⟩ | ⟨pre, w, post, -, he⟩ <;> rw [he]
  · exact (afterWrites_steady h ws).respond_inv (by simp [hready]) (by simp [hready])
  · exact failedWrite_inv (afterWrites_steady h pre) (by simp [hready]) w
  · exact (openWrite_sound (afterWrites_steady h pre).toSound w).hung_inv

/-! ### INIT -/

theorem inFirstDelay_sound {s : State} (h : s.Sound) : (inFirstDelay s).Sound where
  fb := h.fb.congr (by rw [inFirstDelay_eq]) (by rw [inFirstDelay_eq])
  lines :=
    have hctrl : State.LinesOk { s with ctrl := .resetting } := h.lines
    delayEvent_linesOk (drive_linesOk (drive_linesOk hctrl .rst .high) .rst .low) s.cfg.tAssert

theorem inSecondDelay_sound {s : State} (h : s.Sound) : (inSecondDelay s).Sound where
  fb := h.fb.congr (by rw [inSecondDelay_eq]) (by rw [inSecondDelay_eq])
  lines := delayEvent_linesOk (drive_linesOk (inFirstDelay_sound h).lines .rst .high) s.cfg.tRelease

theorem afterPulse_steady {s : State} (h : s.Steady) : (afterPulse s).Steady where
  fb := h.fb.congr (afterPulse_fb s) (afterPulse_cfg s)
  lines := (inSecondDelay_sound h.toSound).lines
  cs := by rw [afterPulse_eq, h.cs]
  rst := by rw [afterPulse_eq]

theorem afterSequence_steady {s : State} (h : s.Steady) : (afterSequence s).Steady :=
  have hsent : (afterWrites (s.cfg.initSeq.map cmdWrite) (afterPulse s)).Steady :=
    afterWrites_steady (afterPulse_steady h) _
  { lines := hsent.lines, cs := hsent.cs, rst := hsent.rst
    fb := (fillBytes_fbOk h.fb 0).congr rfl (by rw [afterSequence_eq]) }

/-- The states in which INIT sends have left the reset pulse (R126). -/
theorem init_sending {s u : State} (h : s.Steady) (hu : u = afterPulse s ∨ u = afterSequence s) :
    u.Steady ∧ u.ctrl = .configuring := by
  rcases hu with rfl | rfl
  · exact ⟨afterPulse_steady h, by rw [afterPulse_eq]⟩
  · exact ⟨afterSequence_steady h, by rw [afterSequence_eq]⟩

/-- INIT ends in the invariant, whatever the transport and the delays answer (R126, R155, R157). -/
theorem initBody_inv {s : State} (h : s.Steady) : (initBody s).finish.Inv := by
  rcases initBody_cases s with ⟨u, he, hu⟩ | ⟨ws, pre, w, post, u, hu, -, he⟩ | he
  · rw [he]
    rcases hu with rfl | rfl
    · exact (inFirstDelay_sound h.toSound).hung_inv
    · exact (inSecondDelay_sound h.toSound).hung_inv
  · obtain ⟨hsteady, hctrl⟩ := init_sending h (hu.imp And.right And.right)
    have hpre := afterWrites_steady hsteady pre
    rcases he with he | he <;> rw [he]
    · exact failedWrite_inv hpre (by simp [hctrl]) w
    · exact (openWrite_sound hpre.toSound w).hung_inv
  · rw [he]
    exact State.Steady.respond_inv { afterWrites_steady (afterSequence_steady h) _ with } nofun nofun

/-! ### Every command and every step -/

/-- A command that runs keeps the invariant. -/
theorem exec_keeps_inv {i : Instr} {s t : State} (hs : s.Inv) (h : exec i s = .next t) : t.Inv := by
  rcases isDrawing_or i with hi | rfl | rfl | ⟨v, rfl⟩
  · obtain ⟨⟨hidle, -⟩, fb, st, pv, rfl, hfb, -⟩ := exec_drawing hi h
    obtain ⟨⟨hw, hb⟩, hlines, hrest⟩ := hs
    exact ⟨⟨(hfb hw).1, (hfb hw).2 hb⟩, hlines, fun _ => hrest hidle⟩
  · obtain ⟨hidle, rfl⟩ := exec_init h
    exact initBody_inv (hs.steady hidle)
  · obtain ⟨⟨hidle, hready⟩, rfl⟩ := exec_flush h
    exact sendAll_inv (hs.steady hidle) hready _
  · obtain ⟨⟨hidle, hready⟩, rfl⟩ := exec_setinv h
    exact sendAll_inv (hs.steady hidle) hready _

/-- Settles O14: a step waits or runs a command, and taking the command from the port touches nothing the invariant
speaks of. -/
theorem everyStepKeepsTheInvariant : Obligations.EveryStepKeepsTheInvariant := by
  intro s t hs h
  rcases step_cases h with rfl | ⟨-, i, hi⟩
  · exact hs
  · exact exec_keeps_inv (s := takeCommand s) hs hi

end Sys2Proof.Machine

/-! PROOFS. The command word and the command port (30_encoding.md): decoding against encoding, what a step makes of the
presented command, admission, and the response word. -/

namespace Sys2Proof

/-! ### The rows, field by field -/

/-- A byte with `E[7:1] = 0` is a flag byte (R62). -/
theorem and_flagMask_eq_zero (e : Byte) : e &&& 0xFE#8 = 0#8 ↔ e = 0 ∨ e = 1 := by
  revert e
  decide

/-- The fields of the word that a row's format does not use are zero, and `E` is a flag byte where the format uses only
`E[0]` (R62, R66). -/
def reservedZero (m : Mnemonic) (cw : CommandWord) : Prop :=
  match m with
  | .fill => fieldA cw = 0 ∧ fieldB cw = 0 ∧ fieldC cw = 0 ∧ fieldD cw = 0
  | .setpix => fieldC cw = 0 ∧ fieldD cw = 0 ∧ (fieldE cw = 0 ∨ fieldE cw = 1)
  | .getpix => fieldC cw = 0 ∧ fieldD cw = 0 ∧ fieldE cw = 0
  | .copyimg => fieldA cw = 0 ∧ fieldB cw = 0 ∧ fieldD cw = 0 ∧ fieldE cw = 0
  | .rchar | .rtext => fieldE cw = 0 ∨ fieldE cw = 1
  | .frect => fieldE cw = 0
  | .setinv => fieldA cw = 0 ∧ fieldB cw = 0 ∧ fieldC cw = 0 ∧ fieldD cw = 0 ∧ (fieldE cw = 0 ∨ fieldE cw = 1)
  | .clear | .dframe | .init | .flush => fieldA cw = 0 ∧ fieldB cw = 0 ∧ fieldC cw = 0 ∧ fieldD cw = 0 ∧ fieldE cw = 0

/-- A row whose pattern is an opcode and whose mask covers `OP` selects the words with that opcode whose other fields
are zero under the mask (R63). -/
theorem selectRow_iff_masked (cw : CommandWord) {m : Mnemonic} (a b c d : Word) (e : Byte)
    (h : ⟨m, packFields (opcodeOf m) 0 0 0 0 0, packFields 0xFF a b c d e⟩ ∈ opcodeTable) :
    selectRow cw = some m ↔ fieldOP cw = opcodeOf m ∧ fieldA cw &&& a = 0 ∧ fieldB cw &&& b = 0 ∧
      fieldC cw &&& c = 0 ∧ fieldD cw &&& d = 0 ∧ fieldE cw &&& e = 0 := by
  have hsel := (selectRow_iff h).trans (rowSelects_iff cw _)
  simpa [and_ones_byte] using hsel

/-- A word selects a row exactly where it has the row's opcode and zero in every reserved bit (R66): each mask is all
ones in a field the format does not use, `0xFE` in a flag, and zero in a field it uses. -/
theorem selectRow_iff_reservedZero (cw : CommandWord) (m : Mnemonic) :
    selectRow cw = some m ↔ fieldOP cw = opcodeOf m ∧ reservedZero m cw := by
  have masked := selectRow_iff_masked cw (m := m)
  cases m with
  | fill => simpa [reservedZero, and_ones_word] using masked 0xFFFF 0xFFFF 0xFFFF 0xFFFF 0 (by decide)
  | setpix =>
    simpa [reservedZero, and_ones_word, and_flagMask_eq_zero] using masked 0 0 0xFFFF 0xFFFF 0xFE (by decide)
  | getpix => simpa [reservedZero, and_ones_word, and_ones_byte] using masked 0 0 0xFFFF 0xFFFF 0xFF (by decide)
  | copyimg => simpa [reservedZero, and_ones_word, and_ones_byte] using masked 0xFFFF 0xFFFF 0 0xFFFF 0xFF (by decide)
  | rchar => simpa [reservedZero, and_flagMask_eq_zero] using masked 0 0 0 0 0xFE (by decide)
  | rtext => simpa [reservedZero, and_flagMask_eq_zero] using masked 0 0 0 0 0xFE (by decide)
  | frect => simpa [reservedZero, and_ones_byte] using masked 0 0 0 0 0xFF (by decide)
  | setinv =>
    simpa [reservedZero, and_ones_word, and_flagMask_eq_zero] using masked 0xFFFF 0xFFFF 0xFFFF 0xFFFF 0xFE (by decide)
  | _ =>
    simpa [reservedZero, and_ones_word, and_ones_byte] using masked 0xFFFF 0xFFFF 0xFFFF 0xFFFF 0xFF (by decide)

/-- Settles O4, row by row from the masks of the opcode map. -/
theorem rowsAskForZeroReservedBits : Obligations.RowsAskForZeroReservedBits := fun cw =>
  have row := selectRow_iff_reservedZero cw
  ⟨row .clear, row .fill, row .setpix, row .getpix, row .copyimg, row .rchar, row .rtext, row .frect, row .dframe,
    row .init, row .flush, row .setinv⟩

/-- Settles O5: both rows are the one `selectRow` finds, and a row's name tells it from the others. -/
theorem noWordSatisfiesTwoRows : Obligations.NoWordSatisfiesTwoRows := by
  intro cw r r' hr hr' h h'
  have names_inj : ∀ a ∈ opcodeTable, ∀ b ∈ opcodeTable, a.name = b.name → a = b := by decide
  have hs := selectRow_of_selects hr (beq_iff_eq.2 h)
  have hs' := selectRow_of_selects hr' (beq_iff_eq.2 h')
  exact names_inj r hr r' hr' (Option.some.inj (hs.symm.trans hs'))

/-! ### What the decoder answers -/

section
variable {cw : CommandWord} {payload : List Byte} {m : Mnemonic} {i : Instr}

theorem decodeCommand_illegal (h : selectRow cw = none) : decodeCommand cw payload = .error .illegalWord := by
  simp [decodeCommand, h]

theorem decodeCommand_of_takesPayload (h : selectRow cw = some m) (ht : takesPayload m = true) :
    decodeCommand cw payload = if payloadNeed m cw ≤ payload.length then
      .ok (assemble m cw (payload.take (payloadNeed m cw))) else .error .shortPayload := by
  simp [decodeCommand, h, ht, hasBytes_iff]

theorem decodeCommand_of_noPayload (h : selectRow cw = some m) (ht : takesPayload m = false) :
    decodeCommand cw payload = if payload = [] then .ok (assemble m cw []) else .error .strayPayload := by
  cases payload <;> simp [decodeCommand, h, ht]

theorem payloadNeed_of_noPayload (ht : takesPayload m = false) : payloadNeed m cw = 0 := by
  cases m with
  | copyimg => cases ht
  | rtext => cases ht
  | _ => rfl

/-- A payload of exactly the length the word asks for is the command's payload (R68). -/
theorem decodeCommand_exact (h : selectRow cw = some m) (hl : payload.length = payloadNeed m cw) :
    decodeCommand cw payload = .ok (assemble m cw payload) := by
  cases ht : takesPayload m with
  | true => rw [decodeCommand_of_takesPayload h ht, if_pos hl.ge, ← hl, List.take_length]
  | false =>
    obtain rfl := List.eq_nil_of_length_eq_zero (hl.trans (payloadNeed_of_noPayload ht))
    rw [decodeCommand_of_noPayload h ht, if_pos rfl]

/-- A command decodes from the row its word selects, with the front of the payload that its word asks for (R68). -/
theorem decodeCommand_ok (h : decodeCommand cw payload = .ok i) :
    ∃ m, selectRow cw = some m ∧ payloadNeed m cw ≤ payload.length ∧
      i = assemble m cw (payload.take (payloadNeed m cw)) := by
  cases hs : selectRow cw with
  | none => rw [decodeCommand_illegal hs] at h; cases h
  | some m =>
    refine ⟨m, rfl, ?_⟩
    cases ht : takesPayload m with
    | true =>
      rw [decodeCommand_of_takesPayload hs ht] at h
      split at h
      · next hl => cases h; exact ⟨hl, rfl⟩
      · cases h
    | false =>
      rw [decodeCommand_of_noPayload hs ht] at h
      split at h
      · next hn => cases h; simp [hn, payloadNeed_of_noPayload ht]
      · cases h

end

/-! ### The command of a word, and the word of a command -/

@[simp] theorem fieldFlag_packFields (op : Byte) (a b c d : Word) (f : Bool) :
    fieldFlag (packFields op a b c d (flagByte f)) = f := by
  rw [fieldFlag, fieldE_packFields]
  cases f <;> decide

@[simp] theorem pixelStateOfFlag_flagOfPixelState (p : PixelState) : pixelStateOfFlag (flagOfPixelState p) = p := by
  cases p <;> rfl

@[simp] theorem flagOfPixelState_pixelStateOfFlag (f : Bool) : flagOfPixelState (pixelStateOfFlag f) = f := by
  cases f <;> rfl

/-- A field `E` of which only `E[0]` is used is the flag's byte where its reserved bits are zero (R62, R66). -/
theorem flagByte_fieldFlag {cw : CommandWord} (h : fieldE cw = 0 ∨ fieldE cw = 1) :
    flagByte (fieldFlag cw) = fieldE cw := by
  rcases h with h | h <;> rw [fieldFlag, h] <;> decide

/-- The word of a command selects the command's row (R63). -/
theorem selectRow_encodeWord (i : Instr) : selectRow (encodeWord i) = some (mnemonicOf i) := by
  cases i with
  | clear => exact Laws.EncodingSelectsRow.clear
  | fill => exact Laws.EncodingSelectsRow.fill _
  | setpix => exact Laws.EncodingSelectsRow.setpix _ _ _
  | getpix => exact Laws.EncodingSelectsRow.getpix _ _
  | copyimg => exact Laws.EncodingSelectsRow.copyimg _ _
  | rchar => exact Laws.EncodingSelectsRow.rchar _ _ _ _ _
  | rtext => exact Laws.EncodingSelectsRow.rtext _ _ _ _ _ _
  | frect => exact Laws.EncodingSelectsRow.frect _ _ _ _
  | dframe => exact Laws.EncodingSelectsRow.dframe
  | init => exact Laws.EncodingSelectsRow.init
  | flush => exact Laws.EncodingSelectsRow.flush
  | setinv => exact Laws.EncodingSelectsRow.setinv _

/-- A command is assembled back from its word and payload: each operand is read from the field it was packed in. -/
theorem assemble_encodeWord (i : Instr) : assemble (mnemonicOf i) (encodeWord i) (payloadOf i) = i := by
  cases i <;> simp [mnemonicOf, encodeWord, payloadOf, assemble]

/-- A command is well formed exactly where its payload is as long as its word asks for (R68). -/
theorem wellFormed_iff (i : Instr) :
    i.wellFormed = true ↔ (payloadOf i).length = payloadNeed (mnemonicOf i) (encodeWord i) := by
  cases i <;> simp [Instr.wellFormed, payloadOf, mnemonicOf, payloadNeed, encodeWord]

/-- The word of a command assembled from a word that selects its row is that word: the fields the command does not name
are zero (R66). -/
theorem encodeWord_assemble {cw : CommandWord} {m : Mnemonic} (h : selectRow cw = some m) (payload : List Byte) :
    encodeWord (assemble m cw payload) = cw := by
  obtain ⟨hop, hres⟩ := (selectRow_iff_reservedZero cw m).1 h
  conv_rhs => rw [← packFields_fields cw, hop]
  cases m with
  | setpix =>
    obtain ⟨hc, hd, he⟩ := hres
    simp [encodeWord, assemble, opcodeOf, hc, hd, flagByte_fieldFlag he]
  | rchar => simp [encodeWord, assemble, opcodeOf, flagByte_fieldFlag hres]
  | rtext => simp [encodeWord, assemble, opcodeOf, flagByte_fieldFlag hres]
  | setinv =>
    obtain ⟨ha, hb, hc, hd, he⟩ := hres
    simp [encodeWord, assemble, opcodeOf, ha, hb, hc, hd, flagByte_fieldFlag he]
  | _ => simp_all [reservedZero, encodeWord, assemble, opcodeOf]

@[simp] theorem mnemonicOf_assemble (m : Mnemonic) (cw : CommandWord) (payload : List Byte) :
    mnemonicOf (assemble m cw payload) = m := by
  cases m <;> rfl

/-- The payload of an assembled command, where it is as long as the word asks for (R47). -/
theorem payloadOf_assemble {m : Mnemonic} {cw : CommandWord} {payload : List Byte}
    (h : payload.length = payloadNeed m cw) : payloadOf (assemble m cw payload) = payload := by
  cases m with
  | copyimg => rfl
  | rtext => rfl
  | _ => exact (List.eq_nil_of_length_eq_zero h).symm

/-- Settles O2: the serial form carries the word and the payload, the word selects the command's row, the payload has
the length it asks for, and the command is assembled back from both. -/
theorem decodeOfEncodeIsTheCommand : Obligations.DecodeOfEncodeIsTheCommand := by
  intro i hwf
  rw [encode, decode_wordBytes, decodeCommand_exact (selectRow_encodeWord i) ((wellFormed_iff i).1 hwf),
    assemble_encodeWord]

/-- Settles O3: the command is assembled from the row the word selects and the front of the payload. -/
theorem decodedCommandReencodes : Obligations.DecodedCommandReencodes := by
  intro cw payload i h
  obtain ⟨m, hs, hl, rfl⟩ := decodeCommand_ok h
  have hlen : (payload.take (payloadNeed m cw)).length = payloadNeed m cw := List.length_take_of_le hl
  rw [wellFormed_iff, encodeWord_assemble hs, mnemonicOf_assemble, payloadOf_assemble hlen, hlen]
  exact ⟨rfl, rfl, rfl⟩

/-- Settles O1, each word by running the decoder on it. -/
theorem specWordsDecodeToTheirCommands : Obligations.SpecWordsDecodeToTheirCommands := by
  unfold Obligations.SpecWordsDecodeToTheirCommands
  decide

end Sys2Proof

namespace Sys2Proof.Machine

/-! ### What a step makes of the presented command -/

/-- Settles O6: the presented command is the one `takeCommand` takes from the port. -/
theorem stepRunsThePresentedCommand : Obligations.StepRunsThePresentedCommand := by
  intro s c rest i hb hp hd
  simp [step, takeCommand, hb, hp, hd]

section
variable {s : State} {c : Command} {rest : List Command}

theorem step_of_decode_error {e : DecodeError} (hb : s.busy = false) (hp : s.pending = c :: rest)
    (hd : decodeCommand c.word c.payload = .error e) : step s = .refused (refusalOf e) := by
  simp [step, hb, hp, hd]

/-- A payload shorter than its command consumes is refused (R68). -/
theorem step_of_shortPayload {m : Mnemonic} (hb : s.busy = false) (hp : s.pending = c :: rest)
    (hs : selectRow c.word = some m) (ht : takesPayload m = true) (hl : c.payload.length < payloadNeed m c.word) :
    step s = .refused .shortPayload :=
  step_of_decode_error hb hp ((decodeCommand_of_takesPayload hs ht).trans (if_neg (Nat.not_le.2 hl)))

/-- Payload bytes beyond those the command consumes change nothing (R68). -/
theorem step_append_payload {m : Mnemonic} (hb : s.busy = false) (hp : s.pending = c :: rest)
    (hs : selectRow c.word = some m) (ht : takesPayload m = true) (hl : payloadNeed m c.word ≤ c.payload.length)
    (extra : List Byte) : step { s with pending := ⟨c.word, c.payload ++ extra⟩ :: rest } = step s := by
  have hd : ∀ more, decodeCommand c.word (c.payload ++ more) =
      .ok (assemble m c.word (c.payload.take (payloadNeed m c.word))) := by
    intro more
    rw [decodeCommand_of_takesPayload hs ht, if_pos (by simp; omega), List.take_append_of_le_length hl]
  have hd0 := hd []
  rw [List.append_nil] at hd0
  rw [stepRunsThePresentedCommand s c rest _ hb hp hd0]
  exact stepRunsThePresentedCommand _ ⟨c.word, c.payload ++ extra⟩ rest _ hb rfl (hd extra)

end

/-- Settles O7: `selectRow` finds no row, which the decoder rejects. -/
theorem illegalWordsAreRefused : Obligations.IllegalWordsAreRefused := by
  refine ⟨fun s c rest hb hp hno => ?_, by decide⟩
  have hnone : selectRow c.word = none := by simpa [selectRow, rowSelects] using hno
  exact step_of_decode_error hb hp (decodeCommand_illegal hnone)

theorem takesPayload_eq_false {m : Mnemonic} (hr : m ≠ .rtext) (hc : m ≠ .copyimg) : takesPayload m = false := by
  cases m with
  | rtext => exact absurd rfl hr
  | copyimg => exact absurd rfl hc
  | _ => rfl

/-- Settles O8, from what the decoder answers for a row with and without a payload. -/
theorem payloadLengthRules : Obligations.PayloadLengthRules := by
  intro s c rest hb hp
  refine ⟨fun hs hl => step_of_shortPayload hb hp hs rfl hl, fun hs hl => step_of_shortPayload hb hp hs rfl hl,
    fun m hs hr hc hne => ?_, fun extra => ⟨fun hs hl => step_append_payload hb hp hs rfl hl extra,
      fun hs hl => step_append_payload hb hp hs rfl hl extra⟩⟩
  exact step_of_decode_error hb hp
    ((decodeCommand_of_noPayload hs (takesPayload_eq_false hr hc)).trans (if_neg hne))

/-! ### Admission -/

theorem whenReady_notReady {s : State} (hb : s.busy = false) (hc : s.ctrl ≠ .ready)
    (k : Host.Outcome State Fault Refusal) : whenReady s k = .refused .notReady := by
  rw [whenReady, whenIdle_run hb, if_neg hc]

/-- In `Ready` a command's meaning is what its admission guards, and none of the guarded meanings refuses as
`notReady`. -/
theorem exec_ne_notReady {s : State} (h : s.admitsAll) (i : Instr) : exec i s ≠ .refused .notReady := by
  have ready : ∀ k : Host.Outcome State Fault Refusal, k ≠ .refused .notReady → whenReady s k ≠ .refused .notReady :=
    fun k hk => by rwa [whenReady_run h]
  cases i with
  | init => rw [exec_init_run h.1]; nofun
  | copyimg size src =>
    refine ready _ ?_
    split
    · nofun
    · split <;> nofun
  | rtext x y p len scale text =>
    refine ready _ ?_
    split <;> nofun
  | _ => exact ready _ nofun

/-- Settles O10: only INIT's admission does not ask for `Ready`. -/
theorem admissionByControllerState : Obligations.AdmissionByControllerState := by
  refine ⟨fun s hb => ⟨_, exec_init_run hb⟩, fun i s hi hb hc => ?_, fun i s hb hc => exec_ne_notReady ⟨hb, hc⟩ i⟩
  cases i with
  | init => exact absurd rfl hi
  | _ => exact whenReady_notReady hb hc _

/-! ### Responses -/

/-- The response word has the codes of STATUS and `CTRL` and the two flags each in a field of its own (R72). -/
theorem responseWord_fields (s : State) :
    (responseWord s).extractLsb' 0 2 = s.status.code ∧ (responseWord s).getLsbD 2 = s.pixval ∧
      (responseWord s).getLsbD 3 = s.xfail ∧ (responseWord s).extractLsb' 4 2 = s.ctrl.code ∧
      (responseWord s).extractLsb' 6 2 = 0#2 := by
  unfold responseWord
  generalize s.status.code = st, s.pixval = pv, s.xfail = xf, s.ctrl.code = ct
  revert st pv xf ct
  decide

/-- Settles O21, with the numbers behind the two codes (R22, R23). -/
theorem responseWordFields : Obligations.ResponseWordFields := by
  intro s
  obtain ⟨hstatus, hpixval, hxfail, hctrl, hzero⟩ := responseWord_fields s
  refine ⟨hstatus.trans ?_, hpixval, hxfail, hctrl.trans ?_, hzero⟩
  · cases s.status <;> rfl
  · cases s.ctrl <;> rfl

/-- A run of transfers and delays that ends idle has returned its response, one that ends busy none (R155, R157). -/
theorem Progress.finish_responds (r : Progress) :
    (r.finish.busy = false → r.finish.responses = r.state.responses ++ [responseWord r.finish]) ∧
      (r.finish.busy = true → r.finish.responses = r.state.responses) := by
  cases r with
  | going s => exact ⟨fun _ => rfl, nofun⟩
  | failed s => exact ⟨fun _ => rfl, nofun⟩
  | hung s => exact ⟨nofun, fun _ => rfl⟩

/-- Settles O22: a drawing command always responds, a controller command as its run of transfers and delays ends. -/
theorem completedCommandsRespondOnce : Obligations.CompletedCommandsRespondOnce := by
  intro i s t h
  rcases isDrawing_or i with hi | hi
  · obtain ⟨-, fb, st, pv, rfl, -⟩ := exec_drawing hi h
    exact ⟨fun _ => rfl, nofun⟩
  · obtain ⟨r, rfl, hr⟩ := exec_controller hi h
    rw [← hr.responses]
    exact r.finish_responds

end Sys2Proof.Machine

/-! PROOFS. The framebuffer commands (40_framebuffer.md): CLEAR, FILL, the pixel accessor and COPYIMG. -/

namespace Sys2Proof.Machine

/-! ### How the commands run in `Ready` -/

section
variable {s : State}

/-- The response of a command of an idle CORE is all that its end adds to the state (R71). -/
theorem respond_of_idle (h : s.busy = false) : respond s = { s with responses := s.responses ++ [responseWord s] } := by
  rw [respond, ← h]

theorem exec_fill_run (h : s.admitsAll) (v : Byte) :
    exec (.fill v) s = .next (respond { s with fb := fillBytes s.cfg s.fb v }) := whenReady_run h _

theorem exec_setpix_run (h : s.admitsAll) (x y : Word) (p : PixelState) :
    exec (.setpix x y p) s = .next (respond { s with fb := setPixel s.cfg s.fb x.toNat y.toNat p }) := whenReady_run h _

theorem exec_getpix_run (h : s.admitsAll) (x y : Word) :
    exec (.getpix x y) s = .next (respond { s with pixval := getPixel s.cfg s.fb x.toNat y.toNat }) := whenReady_run h _

/-- COPYIMG's size is checked before its payload (R89, R68). -/
theorem exec_copyimg_eq (h : s.admitsAll) (size : Word) (src : List Byte) :
    exec (.copyimg size src) s =
      if s.cfg.L + 1 < size.toNat then .refused .sizeTooLarge
      else if size.toNat - 1 ≤ src.length then
        .next (respond { s with fb := copyBytes (src.take (size.toNat - 1)) 0 (fillBytes s.cfg s.fb 0) })
      else .refused .shortPayload := by
  simp only [exec, execCopyimg, whenReady_run h, hasBytes_iff, copyLength, complete]

theorem exec_copyimg_run (h : s.admitsAll) {size : Word} {src : List Byte} (hsize : size.toNat ≤ s.cfg.L + 1)
    (hsrc : size.toNat - 1 ≤ src.length) : exec (.copyimg size src) s =
      .next (respond { s with fb := copyBytes (src.take (size.toNat - 1)) 0 (fillBytes s.cfg s.fb 0) }) := by
  rw [exec_copyimg_eq h, if_neg (Nat.not_lt.2 hsize), if_pos hsrc]

end

/-! ### CLEAR and FILL -/

/-- CLEAR is FILL 0 (R84). -/
theorem exec_clear_eq (s : State) : exec .clear s = exec (.fill 0) s := rfl

/-- A sweep gives every pixel its bit of the byte written (R43, R83). -/
theorem getPixel_fillBytes {c : Config} {m : Memory} (hw : m.wf) (v : Byte) {x y : Nat} (h : inBounds c x y) :
    getPixel c (fillBytes c m v) x y = v.getLsbD (y % 8) := by
  rw [getPixel, if_pos h, memRead_fillBytes c hw, if_pos (pixelIndex_lt h), pixelBit]

/-- A second sweep with the same byte changes nothing (R84). -/
theorem fillBytes_fillBytes (c : Config) {m : Memory} (hw : m.wf) (v : Byte) :
    fillBytes c (fillBytes c m v) v = fillBytes c m v := by
  have hw' := fillBytes_wf c hw v
  refine Memory.ext_read (fillBytes_wf c hw' v) hw' fun a => ?_
  rw [memRead_fillBytes c hw', ite_eq_right_iff, memRead_fillBytes c hw]
  exact fun ha => (if_pos ha).symm

/-- What a sweep leaves does not depend on the bytes before it (R84). -/
theorem fillBytes_eq_fillBytes {c : Config} {m m' : Memory} (hw : m.wf) (hw' : m'.wf) (hb : m.below c.L)
    (hb' : m'.below c.L) (v : Byte) : fillBytes c m v = fillBytes c m' v :=
  Memory.ext_pixel (fillBytes_wf c hw v) (fillBytes_wf c hw' v) (fillBytes_below c hb v) (fillBytes_below c hb' v)
    fun _ _ h => (getPixel_fillBytes hw v h).trans (getPixel_fillBytes hw' v h).symm

theorem exec_fill {v : Byte} {s t : State} (h : exec (.fill v) s = .next t) :
    s.admitsAll ∧ t = respond { s with fb := fillBytes s.cfg s.fb v } := by
  obtain ⟨ha, hk⟩ := whenReady_next h
  exact ⟨ha, complete_next hk⟩

/-- After a FILL the CORE admits another, which leaves FB as it is (R84). -/
theorem exec_fill_twice {v : Byte} {s t : State} (hw : s.fb.wf) (h : exec (.fill v) s = .next t) :
    ∃ u, exec (.fill v) t = .next u ∧ u.fb = t.fb := by
  obtain ⟨⟨-, hready⟩, rfl⟩ := exec_fill h
  have hrun := exec_fill_run (s := respond { s with fb := fillBytes s.cfg s.fb v }) ⟨rfl, hready⟩ v
  exact ⟨_, hrun, fillBytes_fillBytes s.cfg hw v⟩

/-- After a FILL every pixel reads its bit of the pattern (R83, R84). -/
theorem exec_fill_getPixel {v : Byte} {s t : State} (hw : s.fb.wf) (h : exec (.fill v) s = .next t) {x y : Nat}
    (hin : inBounds s.cfg x y) : getPixel s.cfg t.fb x y = v.getLsbD (y % 8) := by
  rw [(exec_fill h).2]
  exact getPixel_fillBytes hw v hin

/-- Settles O24: the sweep's bytes and pixels, in the state the command ends in. -/
theorem fillSetsEveryByte : Obligations.FillSetsEveryByte := fun s v h hw =>
  ⟨_, exec_fill_run h v, memRead_fillBytes s.cfg hw v, fun _ _ => getPixel_fillBytes hw v, ⟨rfl, rfl⟩,
    respond_of_idle h.1⟩

/-- Settles O23: CLEAR is FILL 0. -/
theorem clearZeroesEveryByte : Obligations.ClearZeroesEveryByte := by
  intro s h hw
  obtain ⟨t, hrun, hbytes, -, hframe⟩ := fillSetsEveryByte s 0 h hw
  exact ⟨t, hrun, hbytes, hframe⟩

/-- Settles O25: the laws of the sweep, CLEAR being FILL 0. -/
theorem clearAndFillLaws : Obligations.ClearAndFillLaws := by
  have getLsbD_ones : ∀ b < 8, (0xFF : Byte).getLsbD b = true := by decide
  refine ⟨exec_clear_eq, fun _ _ _ => exec_fill_twice, fun _ _ => exec_fill_twice, fun s t hw h x y hin => ?_,
    fun s t hw h x y hin => ?_, fun p s s' t t' hok hok' hcfg h h' => ?_⟩
  · rw [exec_fill_getPixel hw h hin]
    exact BitVec.getLsbD_zero
  · rw [exec_fill_getPixel hw h hin]
    exact getLsbD_ones _ (pixelBit_lt y)
  · rw [(exec_fill h).2, (exec_fill h').2]
    obtain ⟨hw, hb⟩ := hok
    obtain ⟨hw', hb'⟩ := hok'
    rw [← hcfg] at hb'
    simp only [respond_fb, ← hcfg]
    exact fillBytes_eq_fillBytes hw hw' hb hb' p

/-! ### The pixel accessor, bit by bit -/

/-- Memories in canonical form are equal where every bit of every byte is. -/
theorem Memory.ext_bit {m m' : Memory} (hw : m.wf) (hw' : m'.wf)
    (h : ∀ a j, j < 8 → (memRead m a).getLsbD j = (memRead m' a).getLsbD j) : m = m' :=
  Memory.ext_read hw hw' fun a => BitVec.eq_of_getLsbD_eq (h a)

/-- Bit `j` of byte `a` is the pixel `(x, y)` of the display (R42). -/
abbrev isPixel (c : Config) (x y a j : Nat) : Prop := inBounds c x y ∧ a = pixelIndex c x y ∧ j = pixelBit y

theorem isPixel_inj {c : Config} {x y x' y' a j : Nat} (h : isPixel c x y a j) (h' : isPixel c x' y' a j) :
    (x, y) = (x', y') := by
  obtain ⟨hin, hi, hj⟩ := h
  obtain ⟨hin', hi', hj'⟩ := h'
  obtain ⟨hx, hy⟩ := pixel_inj hin.1 hin'.1 (hi.symm.trans hi') (hj.symm.trans hj')
  rw [hx, hy]

/-- A pixel write changes the pixel's bit and no other bit of the framebuffer (R80). -/
theorem getLsbD_memRead_setPixel {c : Config} {m : Memory} (hw : m.wf) (x y : Nat) (p : PixelState) (a : Nat) {j : Nat}
    (hj : j < 8) : (memRead (setPixel c m x y p) a).getLsbD j =
      if isPixel c x y a j then flagOfPixelState p else (memRead m a).getLsbD j := by
  by_cases hin : inBounds c x y
  · rw [memRead_setPixel hw hin]
    by_cases hi : a = pixelIndex c x y
    · subst hi
      rw [if_pos rfl, getLsbD_writeBit _ (pixelBit_lt y) p hj]
      exact if_congr ⟨fun h => ⟨hin, rfl, h⟩, fun h => h.2.2⟩ rfl rfl
    · rw [if_neg hi, if_neg fun h => hi h.2.1]
  · rw [setPixel_out hin, if_neg fun h => hin h.1]

/-- Writes of different pixels, and writes of one state, commute (R87). -/
theorem setPixel_comm {c : Config} {m : Memory} (hw : m.wf) {x y x' y' : Nat} {p p' : PixelState}
    (h : (x, y) ≠ (x', y') ∨ p = p') :
    setPixel c (setPixel c m x y p) x' y' p' = setPixel c (setPixel c m x' y' p') x y p := by
  have hw₁ := setPixel_wf c hw x y p
  have hw₂ := setPixel_wf c hw x' y' p'
  refine Memory.ext_bit (setPixel_wf c hw₁ _ _ _) (setPixel_wf c hw₂ _ _ _) fun a j hj => ?_
  rw [getLsbD_memRead_setPixel hw₁ _ _ _ _ hj, getLsbD_memRead_setPixel hw₂ _ _ _ _ hj,
    getLsbD_memRead_setPixel hw _ _ _ _ hj, getLsbD_memRead_setPixel hw _ _ _ _ hj]
  by_cases h₁ : isPixel c x y a j
  · by_cases h₂ : isPixel c x' y' a j
    · obtain rfl := h.resolve_left fun hne => hne (isPixel_inj h₁ h₂)
      simp only [if_pos h₁, if_pos h₂]
    · simp only [if_pos h₁, if_neg h₂]
  · simp only [if_neg h₁]

/-- The last of two writes to a pixel wins (R87). -/
theorem setPixel_setPixel (c : Config) {m : Memory} (hw : m.wf) (x y : Nat) (p p' : PixelState) :
    setPixel c (setPixel c m x y p) x y p' = setPixel c m x y p' := by
  have hw₁ := setPixel_wf c hw x y p
  refine Memory.ext_bit (setPixel_wf c hw₁ _ _ _) (setPixel_wf c hw _ _ _) fun a j hj => ?_
  rw [getLsbD_memRead_setPixel hw₁ _ _ _ _ hj, getLsbD_memRead_setPixel hw _ _ _ _ hj,
    getLsbD_memRead_setPixel hw _ _ _ _ hj]
  by_cases h : isPixel c x y a j
  · simp only [if_pos h]
  · simp only [if_neg h]

/-- Settles O28, from what a pixel write does to each bit of the framebuffer. -/
theorem pixelAccessorLaws : Obligations.PixelAccessorLaws := by
  intro c m hw
  refine ⟨fun x y p h => ?_, fun x y x' y' p hne => ?_, fun _ _ _ _ _ _ => setPixel_comm hw,
    setPixel_setPixel c hw, fun _ _ h => if_pos h⟩
  · rw [getPixel_setPixel hw, if_pos ⟨h, rfl, rfl⟩]
  · rw [getPixel_setPixel hw, if_neg fun ⟨_, hx, hy⟩ => hne (by rw [hx, hy])]

/-- Settles O26, from the byte a pixel write leaves at each index (R42, R80). -/
theorem setpixWritesOneBit : Obligations.SetpixWritesOneBit := by
  intro s x y p h hw
  have hidx : x.toNat + y.toNat / 8 * s.cfg.W = pixelIndex s.cfg x.toNat y.toNat := rfl
  rw [hidx]
  refine ⟨_, exec_setpix_run h x y p, fun hin => ⟨fun b hb => ?_, fun a ha => ?_⟩, fun hout => setPixel_out hout _ _,
    ⟨rfl, rfl⟩, respond_of_idle h.1⟩
  · rw [respond_fb, memRead_setPixel hw hin, if_pos rfl]
    exact getLsbD_writeBit _ (pixelBit_lt _) p hb
  · rw [respond_fb, memRead_setPixel hw hin, if_neg ha]

/-- Settles O27: PIXVAL is what the accessor reads, and the response shows it (R72). -/
theorem getpixReadsThePixel : Obligations.GetpixReadsThePixel := fun _ x y h =>
  ⟨_, exec_getpix_run h x y, rfl, ⟨rfl, rfl⟩, (responseWord_fields _).2.1, respond_of_idle h.1⟩

/-! ### COPYIMG -/

/-- The framebuffer an image copy leaves: the image from index 0, zeros to the end, nothing past it (R88). -/
theorem memRead_copyBytes_fillBytes (c : Config) {m : Memory} (hw : m.wf) (image : List Byte) (a : Nat) :
    memRead (copyBytes image 0 (fillBytes c m 0)) a =
      if a < image.length then image[a]?.getD 0 else if a < c.L then 0 else memRead m a := by
  rw [memRead_copyBytes a image 0 _ (fillBytes_wf c hw 0), memRead_fillBytes c hw]
  simp

/-- Settles O30: the image is the front of the payload, `size - 1` bytes long and no longer than the framebuffer. -/
theorem copyimgCopiesSizeLessOne : Obligations.CopyimgCopiesSizeLessOne := by
  intro s size src h hw hsize hsrc
  have hlen : (src.take (size.toNat - 1)).length = size.toNat - 1 := List.length_take_of_le hsrc
  have hread := memRead_copyBytes_fillBytes s.cfg hw (src.take (size.toNat - 1))
  simp only [hlen] at hread
  refine ⟨_, exec_copyimg_run h hsize hsrc, fun a ha => ?_,
    fun a ha hL => ?_, fun a hL => ?_, ⟨rfl, rfl⟩, respond_of_idle h.1⟩
  · rw [respond_fb, hread, if_pos ha, List.getElem?_take_of_lt ha, List.getElem?_eq_getElem (by omega)]
    rfl
  · rw [respond_fb, hread, if_neg (by omega), if_pos hL]
  · rw [respond_fb, hread, if_neg (by omega), if_neg (by omega)]

/-- RTEXT with a payload shorter than `len` is refused (R68). -/
theorem exec_rtext_short {s : State} (h : s.admitsAll) {x y len k : Word} {p : PixelState} {text : List Byte}
    (hl : text.length < len.toNat) : exec (.rtext x y p len k text) s = .refused .shortPayload := by
  refine (whenReady_run h _).trans (if_neg ?_)
  rw [hasBytes_iff]
  omega

/-- Settles O31, from the order in which COPYIMG checks its size and its payload. -/
theorem copyimgAndRtextPreconditions : Obligations.CopyimgAndRtextPreconditions := by
  intro s h
  refine ⟨fun size src hl => ?_, fun size src hl hs => ?_, fun _ _ _ _ _ _ => exec_rtext_short h⟩
  · rw [exec_copyimg_eq h, if_pos hl]
  · rw [exec_copyimg_eq h, if_neg (by omega), if_neg (by omega)]

end Sys2Proof.Machine

/-! PROOFS. The rasterizer commands (41_rasterizer.md): RCHAR, RTEXT, FRECT and DFRAME. -/

namespace Sys2Proof.Machine

/-- What a drawing makes of a framebuffer in canonical form. -/
theorem Paints.draws {c : Config} {p : PixelState} {A : Nat → Nat → Prop} {f : Memory → Memory} (h : Paints c p A f)
    {m : Memory} (hw : m.wf) : Draws c m (f m) p A := (h m hw).2.2

/-! ### The rectangle function -/

/-- Two drawings that cover the same pixels leave the same framebuffer (R43). -/
theorem Paints.unique {c : Config} {p : PixelState} {A : Nat → Nat → Prop} {f g : Memory → Memory}
    (hf : Paints c p A f) (hg : Paints c p A g) {m : Memory} (hw : m.wf) (hb : m.below c.L) : f m = g m := by
  obtain ⟨hfw, hfb, hfon, hfoff, -⟩ := hf m hw
  obtain ⟨hgw, hgb, hgon, hgoff, -⟩ := hg m hw
  refine Memory.ext_pixel hfw hgw (hfb hb) (hgb hb) fun px py hin => ?_
  by_cases hA : A px py
  · rw [hfon px py hin hA, hgon px py hin hA]
  · rw [hfoff px py hin hA, hgoff px py hin hA]

/-- Settles O37: the clipped and the full loops cover the same pixels of the display. -/
theorem clippedRectangleEqualsFullLoops : Obligations.ClippedRectangleEqualsFullLoops := fun c _ x y w h hw hb =>
  (fillRect_paints c x y w h).unique (fillRectLoops_paints c x y w h) hw hb

/-! ### The validations of the glyph function -/

section
variable {c : Config} {x y code scale : Nat}

theorem glyphStatus_outOfBounds (h : c.W ≤ x ∨ c.H ≤ y) : glyphStatus c x y code scale = .outOfBounds := if_pos h

theorem glyphStatus_invalidCharacter (hx : x < c.W) (hy : y < c.H) (hcode : 127 < code) :
    glyphStatus c x y code scale = .invalidCharacter := by
  rw [glyphStatus, if_neg (by omega), if_pos hcode]

theorem glyphStatus_invalidScale (hx : x < c.W) (hy : y < c.H) (hcode : code ≤ 127) (hk : scale < 1 ∨ 3 < scale) :
    glyphStatus c x y code scale = .invalidScale := by
  rw [glyphStatus, if_neg (by omega), if_neg (by omega), if_pos hk]

/-- Where a validation fails the glyph function draws nothing (R101). -/
theorem renderChar_of_invalid (h : glyphStatus c x y code scale ≠ .ok) (m : Memory) (p : PixelState) :
    (renderChar c m x y p code scale).2 = m := if_neg h

end

/-! ### How the commands run in `Ready` -/

section
variable {s : State}

theorem exec_rchar_run (h : s.admitsAll) (x y : Word) (p : PixelState) (code k : Word) :
    exec (.rchar x y p code k) s =
      .next (respond { s with
        status := glyphStatus s.cfg x.toNat y.toNat code.toNat k.toNat
        fb := (renderChar s.cfg s.fb x.toNat y.toNat p code.toNat k.toNat).2 }) := whenReady_run h _

/-- An RCHAR whose validations do not all pass writes STATUS and nothing else (R101, R102). -/
theorem exec_rchar_invalid (h : s.admitsAll) {x y code k : Word} {p : PixelState} {st : Status}
    (hst : glyphStatus s.cfg x.toNat y.toNat code.toNat k.toNat = st) (hne : st ≠ .ok) :
    ∃ t, exec (.rchar x y p code k) s = .next t ∧ Responded s t ∧
      t = { s with status := st, responses := t.responses } := by
  refine ⟨_, exec_rchar_run h x y p code k, ⟨rfl, rfl⟩, ?_⟩
  rw [renderChar_of_invalid (hst ▸ hne), hst]
  exact respond_of_idle h.1

theorem exec_rtext_run (h : s.admitsAll) (x y : Word) (p : PixelState) {len : Word} (k : Word) {text : List Byte}
    (hl : len.toNat ≤ text.length) : exec (.rtext x y p len k text) s =
      .next (respond { s with
        fb := renderText s.cfg s.fb x.toNat y.toNat p (text.take len.toNat) k.toNat }) :=
  (whenReady_run h _).trans (if_pos ((hasBytes_iff _ _).2 hl))

theorem exec_frect_run (h : s.admitsAll) (x y w hh : Word) :
    exec (.frect x y w hh) s =
      .next (respond { s with fb := fillRect s.cfg s.fb x.toNat y.toNat w.toNat hh.toNat }) := whenReady_run h _

theorem exec_dframe_run (h : s.admitsAll) :
    exec .dframe s = .next (respond { s with fb := drawRects s.cfg s.fb s.cfg.frameRects }) := whenReady_run h _

end

/-! ### FRECT and DFRAME -/

/-- Settles O36, from what the rectangle function covers. -/
theorem frectSetsItsRectangle : Obligations.FrectSetsItsRectangle := fun s x y w hh h hw =>
  ⟨_, exec_frect_run h x y w hh, (fillRect_paints s.cfg x.toNat y.toNat w.toNat hh.toNat).draws hw, ⟨rfl, rfl⟩,
    respond_of_idle h.1⟩

/-- Settles O38, from what the loop over the configured rectangles covers. -/
theorem dframeSetsItsRectangles : Obligations.DframeSetsItsRectangles := fun s h hw =>
  ⟨_, exec_dframe_run h, (drawRects_paints s.cfg s.cfg.frameRects).draws hw, ⟨rfl, rfl⟩, respond_of_idle h.1⟩

/-! ### RCHAR -/

/-- Settles O32: the three validations pass, and the glyph function covers the glyph's on bits. -/
theorem rcharDrawsItsGlyph : Obligations.RcharDrawsItsGlyph := by
  intro s x y p code k h hw hx hy hcode hk hk3
  have hok := glyphStatus_ok.2 ⟨hx, hy, hcode, hk, hk3⟩
  have hpaints := (renderChar_paints s.cfg x.toNat y.toNat p code.toNat k.toNat).congr fun px py _ =>
    and_iff_right hok
  exact ⟨_, exec_rchar_run h x y p code k, hok, hpaints.draws hw, ⟨rfl, rfl⟩, respond_of_idle h.1⟩

/-- Settles O33: the first validation that fails decides STATUS, in the order bounds, character, scale. -/
theorem rcharReportsTheFirstFailure : Obligations.RcharReportsTheFirstFailure := fun s x y p code k h =>
  ⟨fun hout => exec_rchar_invalid h (glyphStatus_outOfBounds hout) (by decide),
    fun hx hy hcode => exec_rchar_invalid h (glyphStatus_invalidCharacter hx hy hcode) (by decide),
    fun hx hy hcode hk => exec_rchar_invalid h (glyphStatus_invalidScale hx hy hcode hk) (by decide)⟩

/-! ### RTEXT -/

/-- Settles O34, from what the text loop covers. -/
theorem rtextDrawsItsCharacters : Obligations.RtextDrawsItsCharacters := fun s x y p _ k text h hw hl =>
  ⟨_, exec_rtext_run h x y p k hl, (renderText_paints s.cfg x.toNat y.toNat p (text.take _) k.toNat).draws hw,
    ⟨rfl, rfl⟩, respond_of_idle h.1⟩

/-- At scale 0 every character fails its validation, so the text loop draws nothing (R101, R106). -/
theorem drawChars_scale_zero (c : Config) (x y : Nat) (p : PixelState) (text : List Byte) (n : Nat) (m : Memory) :
    drawChars c x y p 0 text n m = m := by
  induction text generalizing n with
  | nil => rfl
  | cons code text ih =>
    have hinvalid : glyphStatus c (drawColumn x n 0) y code.toNat 0 ≠ .ok := fun hok => by
      obtain ⟨-, -, -, hpos, -⟩ := glyphStatus_ok.1 hok
      omega
    rw [drawChars, renderChar_of_invalid hinvalid, ite_self]
    exact ih (n + 1)

/-- The no-op cases of RTEXT (R105, R106). -/
theorem renderText_nothing {c : Config} {x y scale : Nat} {text : List Byte}
    (h : c.W ≤ x + 2 ∨ c.H ≤ y ∨ 3 < scale ∨ scale = 0 ∨ text = []) (m : Memory) (p : PixelState) :
    renderText c m x y p text scale = m := by
  by_cases hguard : c.W ≤ x + 2 ∨ c.H ≤ y ∨ 3 < scale
  · exact if_pos hguard
  · have hloop : scale = 0 ∨ text = [] := by tauto
    rw [renderText, if_neg hguard]
    obtain rfl | rfl := hloop
    · exact drawChars_scale_zero c x y p text 0 m
    · rfl

/-- Settles O35: in each no-op case the text function leaves the framebuffer as it is. -/
theorem rtextThatDrawsNothing : Obligations.RtextThatDrawsNothing := by
  intro s x y p len k text h hl hcase
  have hempty : len.toNat = 0 → text.take len.toNat = [] := fun h0 => by rw [h0, List.take_zero]
  have hnothing := hcase.imp_right (Or.imp_right (Or.imp_right (Or.imp_right hempty)))
  refine ⟨_, exec_rtext_run h x y p k hl, ⟨rfl, rfl⟩, ?_⟩
  rw [renderText_nothing hnothing]
  exact respond_of_idle h.1

end Sys2Proof.Machine

/-! PROOFS. The controller protocol (42_controller.md): the framing of every transfer, the three lines, FLUSH, INIT and
SETINV. -/

namespace Sys2Proof.Machine

/-! ### Where the bus stands in a state -/

/-- TRACE keeps the framing rules, leaves the bus in this phase, and DC at the level the state holds (R123, R124). -/
def State.BusAt (s : State) (ph : BusPhase) : Prop := busRun s.cfg.W s.trace (.released, .low) = some (ph, s.dc)

theorem State.framed_iff_busAt {s : State} : s.Framed ↔ ∃ ph, s.BusAt ph ∧ (s.busy = false → ph = .released) :=
  ⟨fun ⟨⟨ph, _⟩, hrun, hdc, hidle⟩ => ⟨ph, by rw [BusAt, hrun, ← hdc], hidle⟩,
    fun ⟨ph, hrun, hidle⟩ => ⟨(ph, s.dc), hrun, rfl, hidle⟩⟩

theorem State.Framed.busAt {s : State} (h : s.Framed) (hidle : s.busy = false) : s.BusAt .released := by
  obtain ⟨ph, hbus, hph⟩ := framed_iff_busAt.1 h
  exact hph hidle ▸ hbus

/-- A command that ends with its response leaves TRACE framed where it leaves the bus released. -/
theorem State.BusAt.respond_framed {s : State} (h : s.BusAt .released) : (respond s).Framed :=
  framed_iff_busAt.2 ⟨.released, h, fun _ => rfl⟩

/-- A command that waits for ever leaves TRACE framed wherever it leaves the bus (R157). -/
theorem State.BusAt.hung_framed {s : State} {ph : BusPhase} (h : s.BusAt ph) : (Progress.hung s).finish.Framed :=
  framed_iff_busAt.2 ⟨ph, h, nofun⟩

@[simp] theorem afterSequence_cfg (s : State) : (afterSequence s).cfg = s.cfg := by rw [afterSequence_eq]

theorem initSeq_fits (c : Config) : ∀ w ∈ c.initSeq.map cmdWrite, w.fits c.W := by
  intro w hw
  obtain ⟨b, -, rfl⟩ := List.mem_map.1 hw
  exact cmdWrite_fits c.W b

section
variable {s : State} {ph : BusPhase}

/-- Events appended to TRACE move the bus from where it stood. -/
theorem State.BusAt.append (h : s.BusAt ph) {u : State} {ph' : BusPhase} {es : List Event} (hcfg : u.cfg = s.cfg)
    (htrace : u.trace = s.trace ++ es) (hrun : busRun s.cfg.W es (ph, s.dc) = some (ph', u.dc)) : u.BusAt ph' := by
  rw [BusAt, hcfg, htrace, busRun_append, h]
  exact hrun

theorem State.BusAt.drive_rst (h : s.BusAt ph) (v : Level) : (drive .rst v s).BusAt ph :=
  h.append (drive_cfg _ _ _) (drive_trace _ _ _) rfl

theorem State.BusAt.delayEvent (h : s.BusAt ph) (n : Nat) : (delayEvent n s).BusAt ph :=
  h.append rfl (delayEvent_trace n s) rfl

theorem State.BusAt.afterWrites (h : s.BusAt .released) {ws : List FramedWrite} (hfit : ∀ w ∈ ws, w.fits s.cfg.W) :
    (afterWrites ws s).BusAt .released :=
  h.append rfl rfl (busRun_writes hfit s.dc)

theorem State.BusAt.openWrite (h : s.BusAt .released) {w : FramedWrite} (hfit : w.fits s.cfg.W) :
    (openWrite w s).BusAt .transferred :=
  h.append (openWrite_cfg w s) (openWrite_trace w s) ((openWrite_dc w s).symm ▸ busRun_open hfit s.dc)

/-- `TransportFail` closes the bracket of the failed transfer (R155). -/
theorem State.BusAt.transportFail (h : s.BusAt ph) : (transportFail s).BusAt .released :=
  h.append rfl rfl rfl

/-- The write that is not answered ok leaves its transfer made, after those before it. -/
theorem State.BusAt.stoppedWrite (h : s.BusAt .released) {pre post : List FramedWrite} {w : FramedWrite}
    (hfit : ∀ v ∈ pre ++ w :: post, v.fits s.cfg.W) :
    (Machine.openWrite w (Machine.afterWrites pre s)).BusAt .transferred :=
  (h.afterWrites fun v hv => hfit v (List.mem_append_left _ hv)).openWrite (hfit w (by simp))

/-- Framed writes that fit leave TRACE framed, whatever the transport answers (R123, R124, R155, R157). -/
theorem State.BusAt.sendAll_framed (h : s.BusAt .released) {ws : List FramedWrite} (hfit : ∀ w ∈ ws, w.fits s.cfg.W) :
    (sendAll ws s).finish.Framed := by
  rcases sendAll_cases ws s with he | ⟨pre, w, post, rfl, he⟩ | ⟨pre, w, post, rfl, he⟩ <;> rw [he]
  · exact (h.afterWrites hfit).respond_framed
  · exact (h.stoppedWrite hfit).transportFail.respond_framed
  · exact (h.stoppedWrite hfit).hung_framed

/-! ### The bus within INIT -/

theorem State.BusAt.inFirstDelay (h : s.BusAt ph) : (inFirstDelay s).BusAt ph :=
  have hctrl : State.BusAt { s with ctrl := .resetting } ph := h
  ((hctrl.drive_rst .high).drive_rst .low).delayEvent s.cfg.tAssert

theorem State.BusAt.inSecondDelay (h : s.BusAt ph) : (inSecondDelay s).BusAt ph :=
  (h.inFirstDelay.drive_rst .high).delayEvent s.cfg.tRelease

theorem State.BusAt.afterPulse (h : s.BusAt ph) : (afterPulse s).BusAt ph := h.inSecondDelay

theorem State.BusAt.afterSequence (h : s.BusAt .released) : (afterSequence s).BusAt .released :=
  have hsent : (Machine.afterWrites (s.cfg.initSeq.map cmdWrite) (Machine.afterPulse s)).BusAt .released :=
    h.afterPulse.afterWrites (by rw [afterPulse_cfg]; exact initSeq_fits s.cfg)
  hsent

/-- INIT leaves TRACE framed, whatever the transport and the delays answer (R126, R155, R157). -/
theorem State.BusAt.initBody_framed (h : s.BusAt .released) : (initBody s).finish.Framed := by
  rcases initBody_cases s with ⟨u, he, hu⟩ | ⟨ws, pre, w, post, u, hu, hsplit, he⟩ | he
  · rw [he]
    rcases hu with rfl | rfl
    · exact h.inFirstDelay.hung_framed
    · exact h.inSecondDelay.hung_framed
  · have hsend : u.BusAt .released ∧ ∀ v ∈ ws, v.fits u.cfg.W := by
      rcases hu with ⟨rfl, rfl⟩ | ⟨rfl, rfl⟩
      · exact ⟨h.afterPulse, by rw [afterPulse_cfg]; exact initSeq_fits s.cfg⟩
      · exact ⟨h.afterSequence, by rw [afterSequence_cfg]; exact flushWrites_fit s.cfg _⟩
    obtain ⟨hbus, hfit⟩ := hsend
    have hstopped := hbus.stoppedWrite (hsplit ▸ hfit)
    rcases he with he | he <;> rw [he]
    · exact hstopped.transportFail.respond_framed
    · exact hstopped.hung_framed
  · rw [he]
    have hflushed := h.afterSequence.afterWrites (ws := flushWrites s.cfg (fillBytes s.cfg s.fb 0))
      (by rw [afterSequence_cfg]; exact flushWrites_fit s.cfg _)
    exact State.BusAt.respond_framed hflushed

end

/-! ### Every step keeps TRACE framed -/

/-- A command that runs keeps TRACE framed. -/
theorem exec_keeps_framed {i : Instr} {s t : State} (hs : s.Framed) (h : exec i s = .next t) : t.Framed := by
  rcases isDrawing_or i with hi | rfl | rfl | ⟨v, rfl⟩
  · obtain ⟨⟨hidle, -⟩, fb, st, pv, rfl, -⟩ := exec_drawing hi h
    exact State.BusAt.respond_framed (hs.busAt hidle)
  · obtain ⟨hidle, rfl⟩ := exec_init h
    exact (hs.busAt hidle).initBody_framed
  · obtain ⟨⟨hidle, -⟩, rfl⟩ := exec_flush h
    exact (hs.busAt hidle).sendAll_framed (flushWrites_fit s.cfg s.fb)
  · obtain ⟨⟨hidle, -⟩, rfl⟩ := exec_setinv h
    exact (hs.busAt hidle).sendAll_framed fun w hw => List.mem_singleton.1 hw ▸ cmdWrite_fits _ _

/-- Settles O15: a step waits or runs a command, and taking the command from the port touches neither TRACE nor DC. -/
theorem everyStepKeepsTransfersFramed : Obligations.EveryStepKeepsTransfersFramed := by
  intro s t hs h
  rcases step_cases h with rfl | ⟨-, i, hi⟩
  · exact hs
  · exact exec_keeps_framed (s := takeCommand s) hs hi

/-! ### The output primitive -/

/-- Settles O40, line by line. -/
theorem driveSetsItsLine : Obligations.DriveSetsItsLine := by
  intro l v s
  refine ⟨?_, drive_trace l v s, fun l' hne => ?_⟩
  · cases l <;> rfl
  · cases l' <;> simp [lineLevel, hne.symm]

/-! ### SETINV -/

/-- What a framed write leaves that fails, and one that is never answered (R155, R157). -/
theorem stoppedWrite_eq (w : FramedWrite) (s : State) :
    transportFail (openWrite w s) = { s with
      trace := s.trace ++ writeEvents w
      xfail := true
      cs := .high
      dc := w.level
      answers := s.answers.drop 1 } ∧
    openWrite w s = { s with
      trace := s.trace ++ (writeEvents w).take 3
      cs := .low
      dc := w.level
      answers := s.answers.drop 1 } := by
  have h := stopped_writes (s := s) (w := w) (pre := []) (post := []) rfl
  rwa [afterWrites_nil] at h

/-- Settles O50: SETINV is one framed write, and the answer to its transfer decides how it ends. -/
theorem setinvSendsItsModeByte : Obligations.SetinvSendsItsModeByte := by
  rintro s inverted b h rfl
  rw [exec_setinv_run h, ← sendAll_single]
  refine ⟨fun hok => ?_, fun hfail => ⟨_, rfl, ?_⟩, fun hnever => ?_⟩
  · rw [sendWrite_ok hok]
    exact congrArg Host.Outcome.next (respond_of_idle (s := afterWrites [_] s) h.1)
  · rw [sendWrite_fail hfail, (stoppedWrite_eq _ s).1]
    exact ⟨⟨rfl, rfl⟩, respond_of_idle h.1⟩
  · rw [sendWrite_never hnever, (stoppedWrite_eq _ s).2]
    rfl

/-! ### FLUSH -/

/-- The state after a whole flush (R129, R130). -/
theorem afterWrites_flush (s : State) (m : Memory) : afterWrites (flushWrites s.cfg m) s = { s with
    trace := s.trace ++ flushEvents s.cfg m
    cs := .high
    dc := .high
    answers := s.answers.drop (4 * s.cfg.NP) } := by
  rw [afterWrites, events_flushWrites, length_flushWrites, getLast_flushWrites, if_neg (flushWrites_ne_nil _ _),
    Option.getD_some]

/-- Settles O42: every write is made, the last of them a data block. -/
theorem flushSendsTheWholeFrame : Obligations.FlushSendsTheWholeFrame := by
  intro s h hok
  rw [exec_flush_run h, sendAll_ok (by rwa [length_flushWrites]), afterWrites_flush]
  exact congrArg Host.Outcome.next (respond_of_idle h.1)

/-- Settles O41: a page number is at most 79 (R8), so its page-select byte does not overflow. -/
theorem pageSelectBytes : Obligations.PageSelectBytes := by
  refine ⟨fun c m p hp => ?_, rfl⟩
  have hbyte : (BitVec.ofNat 8 (0xB0 + p)).toNat = 0xB0 + p := by
    have hpages : c.NP ≤ 80 := c.pages_le
    rw [BitVec.toNat_ofNat, Nat.mod_eq_of_lt (by omega)]
  have hwrite : (flushWrites c m)[4 * p + 0]? = (pageWrites c m p)[0]? :=
    getElem?_blocks (length_pageWrites c m) hp (by omega)
  have htransfer := flush_transfer c m hp (j := 0) (by omega)
  rw [← pageSelect_eq] at hbyte ⊢
  exact ⟨hbyte, hwrite, htransfer, hbyte⟩

/-- `n` blocks of `w` entries are the first `w * n` entries. -/
theorem flatMap_range_blocks {α : Type} (f : Nat → α) (w n : Nat) :
    ((List.range n).flatMap fun p => (List.range w).map fun k => f (p * w + k)) = (List.range (w * n)).map f := by
  induction n with
  | zero => rfl
  | succ n ih =>
    rw [List.range_succ, List.flatMap_append, ih, Nat.mul_succ, List.range_add, List.map_append, List.map_map,
      List.flatMap_singleton, Nat.mul_comm w n]
    rfl

/-- The data blocks of a flush are the pages of FB (R128). -/
theorem flush_dataBlock (c : Config) (m : Memory) {p : Nat} (hp : p < c.NP) :
    (transfersIn (flushEvents c m))[4 * p + 3]? = some (memReadBlock m (p * c.W) c.W) :=
  flush_transfer c m hp (by omega)

/-- Settles O43: a flush's events are those of its writes, four a page. -/
theorem flushTraceShape : Obligations.FlushTraceShape := by
  intro c m
  refine ⟨?_, ?_, fun p hp => ⟨?_, ?_, ?_⟩, ?_⟩
  · rw [← events_flushWrites, length_writeEvents, length_flushWrites]
    omega
  · rw [← events_flushWrites, transfersIn_writes, List.length_map, length_flushWrites]
  · rw [flush_dataBlock c m hp, Option.map_some, length_memReadBlock]
  · exact flush_transfer c m hp (by omega)
  · exact flush_transfer c m hp (by omega)
  · rw [Config.L, ← flatMap_range_blocks, List.flatMap_def, List.flatMap_def]
    refine congrArg List.flatten (List.map_congr_left fun p hp => ?_)
    rw [flush_dataBlock c m (List.mem_range.1 hp)]
    rfl

/-! ### INIT -/

theorem transfersIn_flatMap {α : Type} (l : List α) (f : α → List Event) :
    transfersIn (l.flatMap f) = l.flatMap fun a => transfersIn (f a) := by
  rw [transfersIn, List.filterMap_flatMap]
  rfl

/-- The four transfers of a page (R130). -/
theorem transfersIn_pageEvents (c : Config) (p : Nat) (block : List Byte) :
    transfersIn (pageEvents c p block) = [[BitVec.ofNat 8 (0xB0 + p)], [c.colCmd0], [c.colCmd1], block] := rfl

theorem transfersIn_commandEvents (b : Byte) : transfersIn (commandEvents b) = [[b]] := rfl

/-- Settles O47: INIT's events are the reset pulse, which transfers nothing, and the events of its writes. -/
theorem initTraceShape : Obligations.InitTraceShape := by
  intro c
  have hpulse : transfersIn (resetPulse c) = [] := rfl
  refine ⟨?_, rfl, ?_⟩
  · rw [initEvents_eq c Memory.wf_nil, List.length_append, length_writeEvents, List.length_append, List.length_map,
      length_flushWrites, show (resetPulse c).length = 5 from rfl]
    omega
  · simp only [initEvents, transfersIn_append, transfersIn_flatMap, transfersIn_commandEvents, transfersIn_pageEvents,
      hpulse, List.nil_append, List.map_eq_flatMap]

/-- INIT with everything answered (R126, R134, R174). -/
theorem initBody_ok {s : State} (hw : s.fb.wf) (hd : delaysReturn s)
    (hok : transfersOk s (s.cfg.initSeq.length + 4 * s.cfg.NP)) : initBody s = .going { s with
      fb := fillBytes s.cfg s.fb 0
      ctrl := .ready
      trace := s.trace ++ initEvents s.cfg
      cs := .high
      dc := .high
      rst := .high
      answers := s.answers.drop (s.cfg.initSeq.length + 4 * s.cfg.NP)
      delays := s.delays.drop 2 } := by
  have hseq := sendAll_initSeq (s := s) fun k hk => hok k (by omega)
  have hflush : sendAll (flushWrites s.cfg (fillBytes s.cfg s.fb 0)) (afterSequence s) =
      .going (afterWrites (flushWrites s.cfg (fillBytes s.cfg s.fb 0)) (afterSequence s)) :=
    sendAll_ok fun k hk => by
      rw [length_flushWrites] at hk
      rw [answerAt_afterSequence]
      exact hok _ (by omega)
  rw [initBody_after_sequence hd hseq, hflush]
  have hstate := afterWrites_flush (afterSequence s) (fillBytes s.cfg s.fb 0)
  rw [afterSequence_cfg] at hstate
  rw [hstate, afterSequence_eq, initEvents, ← flushEvents_zero s.cfg hw]
  simp [Progress.andThen]

/-- Settles O46, from the state INIT's body ends in. -/
theorem initMakesTheCoreReady : Obligations.InitMakesTheCoreReady := by
  intro s h hw hd hok
  refine ⟨_, exec_init_run h, ?_⟩
  rw [initBody_ok hw hd hok]
  exact ⟨memRead_fillBytes s.cfg hw 0, ⟨rfl, rfl⟩, respond_of_idle h⟩

/-- INIT whose transfer number `k` is the first not answered ok, and fails (R126, R155). -/
theorem initBody_fails {s : State} {k : Nat} (hw : s.fb.wf) (hd : delaysReturn s)
    (hk : k < s.cfg.initSeq.length + 4 * s.cfg.NP) (hok : transfersOk s k) (hfail : answerAt s k = .fail) :
    ∃ m, (k < s.cfg.initSeq.length → m = s.fb) ∧ (s.cfg.initSeq.length ≤ k → m = fillBytes s.cfg s.fb 0) ∧
      initBody s = .failed { s with
        fb := m
        ctrl := .configuring
        trace := s.trace ++ (initEvents s.cfg).take (5 + 4 * k + 4)
        xfail := true
        cs := .high
        dc := if s.cfg.initSeq.length ≤ k ∧ (k - s.cfg.initSeq.length) % 4 = 3 then .high else .low
        rst := .high
        answers := s.answers.drop (k + 1)
        delays := s.delays.drop 2 } := by
  obtain ⟨w, u, hrun, hans, hlevel, htake, hseq, hflush, hu⟩ := initBody_stops hd hk hok (by simp [hfail]) hw
  refine ⟨u.fb, hseq, hflush, ?_⟩
  rw [hrun, sendWrite_fail (hans.trans hfail), (stoppedWrite_eq w u).1, htake, ← hlevel]
  generalize u.fb = m, u.dc = d, u.cs = l at hu
  subst hu
  simp [Progress.andThen]

/-- Settles O48, from the state in which the failed transfer ends INIT's body. -/
theorem initAbortsAtAFailedTransfer : Obligations.InitAbortsAtAFailedTransfer := by
  intro s k h hw hd hk hok hfail
  obtain ⟨m, hseq, hflush, hbody⟩ := initBody_fails hw hd hk hok hfail
  refine ⟨_, exec_init_run h, ?_⟩
  rw [hbody]
  refine ⟨hseq, fun hle => ?_, ⟨rfl, rfl⟩, respond_of_idle h⟩
  obtain rfl := hflush hle
  exact memRead_fillBytes s.cfg hw 0

end Sys2Proof.Machine

/-! PROOFS. The exceptions of the controller protocol (60_exceptions.md): the FLUSH whose transfer fails, and the FLUSH and
the INIT that wait for ever. -/

namespace Sys2Proof.Machine

/-! ### FLUSH stopped at a transfer -/

section
variable {c : Config} {s : State} {k : Nat}

/-- Transfer number `k` of a flush is one of its writes: every fourth is a data block (R128). -/
theorem flushWrites_split (m : Memory) (hk : k < 4 * c.NP) : ∃ pre w post,
    flushWrites c m = pre ++ w :: post ∧ pre.length = k ∧ w.level = if k % 4 = 3 then .high else .low := by
  obtain ⟨pre, w, post, hsplit, hlen, hget⟩ := split_at (l := flushWrites c m) (by rwa [length_flushWrites])
  have hlevel := flushWrites_level c m hk
  rw [hget, Option.map_some] at hlevel
  exact ⟨pre, w, post, hsplit, hlen, Option.some.inj hlevel⟩

/-- A flush whose transfer number `k` is the first not answered ok, and fails (R155). -/
theorem sendAll_flush_fails (hk : k < 4 * s.cfg.NP) (hok : transfersOk s k) (hfail : answerAt s k = .fail) :
    sendAll (flushWrites s.cfg s.fb) s = .failed { s with
      trace := s.trace ++ (flushEvents s.cfg s.fb).take (4 * k + 4)
      xfail := true
      cs := .high
      dc := if k % 4 = 3 then .high else .low
      answers := s.answers.drop (k + 1) } := by
  obtain ⟨pre, w, post, hsplit, rfl, hlevel⟩ := flushWrites_split s.fb hk
  rw [← hlevel, ← events_flushWrites, ← (stopped_writes hsplit).1, hsplit, sendAll_fail hok hfail]

/-- A flush whose transfer number `k` is the first not answered ok, and is never answered (R157). -/
theorem sendAll_flush_hangs (hk : k < 4 * s.cfg.NP) (hok : transfersOk s k) (hnever : answerAt s k = .never) :
    sendAll (flushWrites s.cfg s.fb) s = .hung { s with
      trace := s.trace ++ (flushEvents s.cfg s.fb).take (4 * k + 3)
      cs := .low
      dc := if k % 4 = 3 then .high else .low
      answers := s.answers.drop (k + 1) } := by
  obtain ⟨pre, w, post, hsplit, rfl, hlevel⟩ := flushWrites_split s.fb hk
  rw [← hlevel, ← events_flushWrites, ← (stopped_writes hsplit).2, hsplit, sendAll_never hok hnever]

end

/-- Settles O44, from the state in which the failed transfer ends the flush. -/
theorem flushAbortsAtAFailedTransfer : Obligations.FlushAbortsAtAFailedTransfer := by
  intro s k h hk hok hfail
  refine ⟨_, exec_flush_run h, ?_⟩
  rw [sendAll_flush_fails hk hok hfail]
  exact ⟨⟨rfl, rfl⟩, respond_of_idle h.1⟩

/-- Settles O45, from the state in which the flush waits. -/
theorem flushHangsAtAnUnansweredTransfer : Obligations.FlushHangsAtAnUnansweredTransfer := by
  intro s k h hk hok hnever
  rw [exec_flush_run h, sendAll_flush_hangs hk hok hnever]
  rfl

/-! ### INIT that waits for ever -/

/-- A stretch of a list determines every shorter stretch from the same place. -/
theorem take_add_of_le {α : Type} {l es : List α} {a m n : Nat} (h : l.take (a + n) = l.take a ++ es) (hmn : m ≤ n) :
    l.take (a + m) = l.take a ++ es.take m := by
  rw [List.take_add] at h ⊢
  rw [← List.append_cancel_left h, List.take_take, Nat.min_eq_left hmn]

/-- INIT's body in a first delay that never returns (R122, R157). -/
theorem initBody_hangs_first {s : State} (h : delayAt s 0 = .never) : initBody s = .hung { s with
    ctrl := .resetting
    trace := s.trace ++ (initEvents s.cfg).take 3
    rst := .low
    delays := s.delays.drop 1 } := by
  rw [initBody_first_delay h, inFirstDelay_eq, List.drop_one]
  rfl

/-- INIT's body in a second delay that never returns (R122, R157). -/
theorem initBody_hangs_second {s : State} (h0 : delayAt s 0 = .returns) (h1 : delayAt s 1 = .never) :
    initBody s = .hung { s with
      ctrl := .resetting
      trace := s.trace ++ (initEvents s.cfg).take 5
      rst := .high
      delays := s.delays.drop 2 } := by
  rw [initBody_second_delay h0 h1, inSecondDelay_eq]
  rfl

/-- INIT whose transfer number `k` is the first not answered ok, and is never answered (R126, R157). -/
theorem initBody_hangs {s : State} {k : Nat} (hw : s.fb.wf) (hd : delaysReturn s)
    (hk : k < s.cfg.initSeq.length + 4 * s.cfg.NP) (hok : transfersOk s k) (hnever : answerAt s k = .never) :
    ∃ m, (k < s.cfg.initSeq.length → m = s.fb) ∧ (s.cfg.initSeq.length ≤ k → m = fillBytes s.cfg s.fb 0) ∧
      initBody s = .hung { s with
        fb := m
        ctrl := .configuring
        trace := s.trace ++ (initEvents s.cfg).take (5 + 4 * k + 3)
        cs := .low
        dc := if s.cfg.initSeq.length ≤ k ∧ (k - s.cfg.initSeq.length) % 4 = 3 then .high else .low
        rst := .high
        answers := s.answers.drop (k + 1)
        delays := s.delays.drop 2 } := by
  obtain ⟨w, u, hrun, hans, hlevel, htake, hseq, hflush, hu⟩ := initBody_stops hd hk hok (by simp [hnever]) hw
  refine ⟨u.fb, hseq, hflush, ?_⟩
  rw [hrun, sendWrite_never (hans.trans hnever), (stoppedWrite_eq w u).2, take_add_of_le htake (by decide : 3 ≤ 4),
    ← hlevel]
  generalize u.fb = m, u.dc = d, u.cs = l at hu
  subst hu
  simp [Progress.andThen]

/-- Settles O49: the two delays and the transfers are where INIT can wait, each with the state it waits in. -/
theorem initHangs : Obligations.InitHangs := by
  intro s h
  refine ⟨fun h0 => ?_, fun h0 h1 => ?_, fun k hw hd hk hok hnever => ?_⟩
  · rw [exec_init_run h, initBody_hangs_first h0]
    rfl
  · rw [exec_init_run h, initBody_hangs_second h0 h1]
    rfl
  · obtain ⟨m, hseq, hflush, hbody⟩ := initBody_hangs hw hd hk hok hnever
    refine ⟨_, exec_init_run h, ?_⟩
    rw [hbody]
    refine ⟨hseq, fun hle => ?_, rfl⟩
    obtain rfl := hflush hle
    exact memRead_fillBytes s.cfg hw 0

end Sys2Proof.Machine

/-! PROOFS. Reset and hazards (70_reset_and_hazards.md): the CORE that waits, and the margin columns no text and no
rectangle reaches. -/

namespace Sys2Proof.Machine

/-! ### The CORE that waits -/

theorem step_of_busy {s : State} (h : s.busy = true) : step s = .next s := if_pos h

theorem step_of_nothing_pending {s : State} (hidle : s.busy = false) (hp : s.pending = []) : step s = .next s := by
  simp [step, hidle, hp]

/-- Settles O9: either wait is a step to the same state, and a machine whose step leaves its state stays in it. -/
theorem idleCoreWaitsAndHungCoreStaysHung : Obligations.IdleCoreWaitsAndHungCoreStaysHung :=
  ⟨fun _ => step_of_nothing_pending, fun _ n hbusy => run_of_step (M := core) (step_of_busy hbusy) n⟩

/-! ### The margin columns -/

/-- A pixel no drawing covers reads as before, off the display too, where every pixel reads as 0 (R81). -/
theorem Draws.getPixel_uncovered {c : Config} {m m' : Memory} {p : PixelState} {A : Nat → Nat → Prop}
    (h : Draws c m m' p A) {px py : Nat} (hA : ¬ A px py) : getPixel c m' px py = getPixel c m px py := by
  obtain ⟨-, hoff, -⟩ := h
  by_cases hin : inBounds c px py
  · exact hoff px py hin hA
  · rw [getPixel, if_neg hin, getPixel, if_neg hin]

theorem textCovers_column {c : Config} {x y scale px py : Nat} {text : List Byte}
    (h : textCovers c x y scale text px py) : 2 ≤ px := by
  obtain ⟨-, -, -, -, i, code, -, -, -, hleft, -⟩ := h
  omega

theorem rectCovers_column {x y w h px py : Nat} (hr : rectCovers x y w h px py) : 2 ≤ px := by
  obtain ⟨hleft, -⟩ := hr
  omega

/-- RTEXT, FRECT and DFRAME draw from column 2 on: their first column is two right of their `x` (R105, R110, R112). -/
theorem exec_draws_from_column_two {i : Instr} {s t : State} (hw : s.fb.wf)
    (hi : (∃ x y p len k text, i = .rtext x y p len k text) ∨ (∃ x y w h, i = .frect x y w h) ∨ i = .dframe)
    (h : exec i s = .next t) : ∃ p A, Draws s.cfg s.fb t.fb p A ∧ ∀ px py, A px py → 2 ≤ px := by
  rcases hi with ⟨x, y, p, len, k, text, rfl⟩ | ⟨x, y, w, hh, rfl⟩ | rfl <;> obtain ⟨-, hk⟩ := whenReady_next h
  · split at hk
    · obtain rfl := complete_next hk
      exact ⟨p, _, (renderText_paints s.cfg x.toNat y.toNat p (text.take len.toNat) k.toNat).draws hw,
        fun _ _ => textCovers_column⟩
    · cases hk
  · obtain rfl := complete_next hk
    exact ⟨.set, _, (fillRect_paints s.cfg x.toNat y.toNat w.toNat hh.toNat).draws hw, fun _ _ => rectCovers_column⟩
  · obtain rfl := complete_next hk
    exact ⟨.set, _, (drawRects_paints s.cfg s.cfg.frameRects).draws hw,
      fun _ _ ⟨_, _, hr⟩ => rectCovers_column hr⟩

/-- Settles O39: columns 0 and 1 lie left of everything the three commands draw. -/
theorem marginColumnsAreLeftAlone : Obligations.MarginColumnsAreLeftAlone := by
  intro i s t hw hi h y
  obtain ⟨p, A, hdraws, hcolumn⟩ := exec_draws_from_column_two hw hi h
  have uncovered : ∀ px, px < 2 → ¬ A px y := fun px hpx hA => Nat.not_le.2 hpx (hcolumn px y hA)
  exact ⟨hdraws.getPixel_uncovered (uncovered 0 (by decide)), hdraws.getPixel_uncovered (uncovered 1 (by decide))⟩

end Sys2Proof.Machine
